-- ==== Sys2Proof/Word.lean ====
section
/-! DEFINITION. The value types of 00_scope.md R10 that have one width, and of 30_encoding.md R84 and R90.
`Time` of R10 has none: its width `TIME_BITS` is a parameter (R8, `Params.timeBits`), and rules compute with it as with
an integer (R11, R32). A time is a `Nat`, which the clock premise of R236 bounds (log 7). -/

namespace Sys2Proof

/-- `Byte` of R10: 0 to 255. -/
abbrev Byte := BitVec 8

/-- `Raw` of R10 and R35: raw height units, read as the signed integer `toInt`. -/
abbrev Raw := BitVec 32

/-- `H` of R10 as an operand or a stored preset (R84, R85): `1/INCH_SCALE` inch, read as `toInt`. -/
abbrev Height := BitVec 32

/-- `Label` of R10 and R96: an 8-bit label id. -/
abbrev Label := BitVec 8

/-- The command word of R84. -/
abbrev Command := BitVec 48

/-- The event word of R90. -/
abbrev EventWord := BitVec 36

end Sys2Proof
end

