-- ==== Sys2Proof/Machine/Constants.lean ====
section
/-! DEFINITION. The fixed literals of 00_scope.md R8, each under the name the spec gives it: the spec calls them
unaudited and asks that a model keep each as a named constant (93_implementation_defined.md U1). -/

namespace Sys2Proof.Machine

/-- `MARKER` (R111). -/
def marker : Byte := 0x01#8

/-- `PREAMBLE_LEN` (R81). -/
def preambleLen : Nat := 3

/-- `FRAME_LEN` (R81). -/
def frameLen : Nat := 4

/-- `HOLD_MS` (R133). -/
def holdMs : Nat := 1000

/-- `DC_GAP_MS` (R136 (a)). -/
def dcGapMs : Nat := 1000

/-- `DC_RELEASE_MS` (R136 (b)). -/
def dcReleaseMs : Nat := 1000

/-- `LOCKOUT_MS` (R136). -/
def lockoutMs : Nat := 1000

/-- `BOOT_LOCKOUT_MS` (R165). -/
def bootLockoutMs : Nat := 1000

/-- `TOL` (R172). -/
def tol : Nat := 5

/-- `RAW_PER_INCH` (R161, R162). -/
def rawPerInch : Nat := 10

/-- The `TIME_BITS` for which the command word of 30_encoding.md R84 is defined; the parameter itself is
`Params.timeBits`. -/
def wordTimeBits : Nat := 32

/-- `N_BTN` (R26). -/
def nBtn : Nat := 2

/-- `LBL_NONE` (R96). -/
def lblNone : Label := 0x00#8

end Sys2Proof.Machine
end

