-- ==== Sys2Proof/Syntax.lean ====
section
/-! DEFINITION. The eleven operations of 00_scope.md R3 with their operands (30_encoding.md R85, R86): one
constructor for each row of spec/opcode_table.json. -/

namespace Sys2Proof

/-- The detector index of R92: `UP` = 0, `DOWN` = 1. -/
inductive Button where
  | up
  | down
deriving DecidableEq, Repr

/-- One operation (R3), operands as R86 lists them. -/
inductive Instr where
  /-- `RESET now` (43_height_controller.md R165). -/
  | reset (now : Nat)
  /-- `INIT` (R166). -/
  | init
  /-- `RXB byte` (R167). -/
  | rxb (byte : Byte)
  /-- `TICK now, up_n, down_n` (R169): the raw active-low pins, `false` = pressed. -/
  | tick (now : Nat) (upN : Bool) (downN : Bool)
  /-- `SLOWTICK` (R176). -/
  | slowtick
  /-- `SETT h` (R168). -/
  | sett (h : Height)
  /-- `FEED byte` (41_decoder.md R119). -/
  | feed (byte : Byte)
  /-- `UPD now, level, det` (42_edge_detector.md R142): the inverted level, `true` = pressed. -/
  | upd (now : Nat) (level : Bool) (det : Button)
  /-- `SEL label` (44_preset_selector.md R203). -/
  | sel (label : Label)
  /-- `HCHG` (R204). -/
  | hchg
  /-- `ADDP label, h` (R201). -/
  | addp (label : Label) (h : Height)
deriving DecidableEq, Repr

/-- The mnemonic of an operation (R3, R94). -/
def Instr.mnemonic : Instr → String
  | .reset _ => "RESET"
  | .init => "INIT"
  | .rxb _ => "RXB"
  | .tick _ _ _ => "TICK"
  | .slowtick => "SLOWTICK"
  | .sett _ => "SETT"
  | .feed _ => "FEED"
  | .upd _ _ _ => "UPD"
  | .sel _ => "SEL"
  | .hchg => "HCHG"
  | .addp _ _ => "ADDP"

end Sys2Proof
end

