-- ==== Sys2Proof/Decode.lean ====
section
/-! DEFINITION. The command word of 30_encoding.md R84 to R88, which is defined for a 32-bit clock: the decoder, total
on all 48-bit words and rejecting by name, and the encoder. Both are written from the format table of R84; the match and
mask values of R86 stand beside them as data, for the statements. -/

namespace Sys2Proof

/-- Why a word encodes no operation (R88). -/
inductive DecodeError where
  /-- Opcode `0x0` or `0xC` to `0xF`. -/
  | reservedOpcode
  /-- A defined opcode with a 1 in a must-be-zero bit. -/
  | mustBeZero
deriving DecidableEq, Repr

/-- `CW[47:44]`. -/
def opField (w : Command) : BitVec 4 := w.extractLsb' 44 4

/-- `CW[31:0]`: the bits of `now` in formats T and P, `h` of formats H and L (R85). -/
def wordField (w : Command) : BitVec 32 := w.extractLsb' 0 32

/-- `now` of formats T and P (R85): `zext_32` of `CW[31:0]`. -/
def timeField (w : Command) : Nat := (wordField w).toNat

/-- `CW[7:0]`: `byte` or `label` of format B (R85). -/
def byteField (w : Command) : BitVec 8 := w.extractLsb' 0 8

/-- `CW[39:32]`: `label` of format L (R85). -/
def labelField (w : Command) : Label := w.extractLsb' 32 8

/-- `CW[32]`: `up_n` of `TICK`, `level` of `UPD` (R85). -/
def lowPinField (w : Command) : Bool := w.getLsbD 32

/-- `CW[33]`: `down_n` of `TICK`, `det` of `UPD` (R85). -/
def highPinField (w : Command) : Bool := w.getLsbD 33

/-- The detector instance a `det` bit selects (R85, R92): 0 = `UP`, 1 = `DOWN`. -/
def Button.ofBit (det : Bool) : Button := if det then .down else .up

/-- The `det` bit of a detector instance (R92). -/
def Button.bit : Button → Bool
  | .up => false
  | .down => true

/-- R88: the operation, if the must-be-zero bits of its format are zero. -/
def whenZero {n : Nat} (zeros : BitVec n) (i : Instr) : Except DecodeError Instr :=
  if zeros = 0#n then .ok i else .error .mustBeZero

/-- The operation a command word encodes (R84, R85, R86, R88). -/
def decode (w : Command) : Except DecodeError Instr :=
  match (opField w).toNat with
  | 0x1 => whenZero (w.extractLsb' 32 12) (.reset (timeField w))
  | 0x2 => whenZero (w.extractLsb' 0 44) .init
  | 0x3 => whenZero (w.extractLsb' 8 36) (.rxb (byteField w))
  | 0x4 => whenZero (w.extractLsb' 34 10) (.tick (timeField w) (lowPinField w) (highPinField w))
  | 0x5 => whenZero (w.extractLsb' 0 44) .slowtick
  | 0x6 => whenZero (w.extractLsb' 32 12) (.sett (wordField w))
  | 0x7 => whenZero (w.extractLsb' 8 36) (.feed (byteField w))
  | 0x8 => whenZero (w.extractLsb' 34 10) (.upd (timeField w) (lowPinField w) (Button.ofBit (highPinField w)))
  | 0x9 => whenZero (w.extractLsb' 8 36) (.sel (byteField w))
  | 0xA => whenZero (w.extractLsb' 0 44) .hchg
  | 0xB => whenZero (w.extractLsb' 40 4) (.addp (labelField w) (wordField w))
  | _ => .error .reservedOpcode

/-- Format N of R84. -/
def formatN (op : BitVec 4) : Command := op ++ 0#44

/-- Format B of R84. -/
def formatB (op : BitVec 4) (b : BitVec 8) : Command := op ++ 0#36 ++ b

/-- Formats T and H of R84. -/
def formatT (op : BitVec 4) (v : BitVec 32) : Command := op ++ 0#12 ++ v

/-- Format P of R84: `CW[33]`, `CW[32]`, `now`. -/
def formatP (op : BitVec 4) (bit33 bit32 : Bool) (now : BitVec 32) : Command :=
  op ++ 0#10 ++ BitVec.ofBool bit33 ++ BitVec.ofBool bit32 ++ now

/-- Format L of R84. -/
def formatL (op : BitVec 4) (label : Label) (h : Height) : Command := op ++ 0#4 ++ label ++ h

/-- The bits of `now` in a command word (R84); they hold it whole when the operation is `encodable`. -/
def timeWord (now : Nat) : BitVec 32 := BitVec.ofNat 32 now

/-- Whether an operation has a command word: its `now` fits the word's field (R84). Every other operand does by its
type. -/
def Instr.encodable : Instr → Bool
  | .reset now => decide (now < 2 ^ Machine.wordTimeBits)
  | .init => true
  | .rxb _ => true
  | .tick now _ _ => decide (now < 2 ^ Machine.wordTimeBits)
  | .slowtick => true
  | .sett _ => true
  | .feed _ => true
  | .upd now _ _ => decide (now < 2 ^ Machine.wordTimeBits)
  | .sel _ => true
  | .hchg => true
  | .addp _ _ => true

/-- The command word of an `encodable` operation (R84, R86). -/
def encode : Instr → Command
  | .reset now => formatT 0x1#4 (timeWord now)
  | .init => formatN 0x2#4
  | .rxb byte => formatB 0x3#4 byte
  | .tick now upN downN => formatP 0x4#4 downN upN (timeWord now)
  | .slowtick => formatN 0x5#4
  | .sett h => formatT 0x6#4 h
  | .feed byte => formatB 0x7#4 byte
  | .upd now level det => formatP 0x8#4 det.bit level (timeWord now)
  | .sel label => formatB 0x9#4 label
  | .hchg => formatN 0xA#4
  | .addp label h => formatL 0xB#4 label h

/-- The `match` column of R86 and of spec/opcode_table.json. -/
def Instr.matchBits : Instr → Command
  | .reset _ => 0x100000000000#48
  | .init => 0x200000000000#48
  | .rxb _ => 0x300000000000#48
  | .tick _ _ _ => 0x400000000000#48
  | .slowtick => 0x500000000000#48
  | .sett _ => 0x600000000000#48
  | .feed _ => 0x700000000000#48
  | .upd _ _ _ => 0x800000000000#48
  | .sel _ => 0x900000000000#48
  | .hchg => 0xA00000000000#48
  | .addp _ _ => 0xB00000000000#48

/-- The `mask` column of R86 and of spec/opcode_table.json. -/
def Instr.maskBits : Instr → Command
  | .reset _ => 0xFFFF00000000#48
  | .init => 0xFFFFFFFFFFFF#48
  | .rxb _ => 0xFFFFFFFFFF00#48
  | .tick _ _ _ => 0xFFFC00000000#48
  | .slowtick => 0xFFFFFFFFFFFF#48
  | .sett _ => 0xFFFF00000000#48
  | .feed _ => 0xFFFFFFFFFF00#48
  | .upd _ _ _ => 0xFFFC00000000#48
  | .sel _ => 0xFFFFFFFFFF00#48
  | .hchg => 0xFFFFFFFFFFFF#48
  | .addp _ _ => 0xFF0000000000#48

/-- The command word whose bits are the low `nbits` bits of `w`, numbered as spec/opcode_table.json numbers them
(bit 0 least significant, R9), the bits above zero; `none` where that number needs more than 48 bits. A command
word is one 48-bit number, so there is no byte order (log 24). -/
def commandOfBits (nbits w : Nat) : Option Command :=
  let v := w % 2 ^ nbits
  if v < 2 ^ 48 then some (BitVec.ofNat 48 v) else none

/-- The instruction the decoder reads from the bits `w` of a table row. -/
def decodeTableWord (nbits w : Nat) : Option Instr :=
  match commandOfBits nbits w with
  | none => none
  | some c =>
    match decode c with
    | .ok i => some i
    | .error _ => none

end Sys2Proof
end

