-- ==== Sys2Proof/Config.lean ====
section
/-! DEFINITION. What the configuration layer supplies (10_state.md R39, 00_scope.md R8), and the values the
spec leaves open, as opaque constants. The fixed literals stand in Machine/Constants.lean. -/

namespace Sys2Proof

/-- The configuration registers of R39 and the numeric parameters of R8 left OPEN: constant over a trace, read
by the operations, written by none. A machine holds one such record (`State.cfg`, assumption log 4). -/
structure Params where
  /-- `TIME_BITS`: the width of the clock, in bits; see `Params.valid`. -/
  timeBits : Nat
  /-- `MIN_RAW`, calibration: raw units at minimum. -/
  minRaw : Raw
  /-- `MAX_RAW`, stored for calibration completeness; no rule reads it (R39, R179). -/
  maxRaw : Raw
  /-- `MIN_H`, calibration: height at minimum, in `1/INCH_SCALE` inch. -/
  minH : Height
  /-- `INCH_SCALE`: counts per inch of inch-valued quantities; see `Params.valid`. -/
  inchScale : Nat
  /-- `DC_LABEL[0]`: the label a double-click on `UP` selects. -/
  dcLabelUp : Label
  /-- `DC_LABEL[1]`: the label a double-click on `DOWN` selects. -/
  dcLabelDown : Label
  /-- `SEL_ATTACHED`: whether a selector is attached (R180). -/
  selAttached : Bool
  /-- `STARTUP_PULSE_MS`, carried only in `EV_DELAY` (R166). -/
  startupPulseMs : BitVec 32
  /-- `REPORT_PERIOD_MS`, read by no rule (R232). -/
  reportPeriodMs : Nat
deriving DecidableEq, Repr

/-- The constraints of R8 and 92_eei_decisions.md: `INCH_SCALE` is a positive multiple of 10, `TIME_BITS` is
positive. -/
abbrev Params.valid (c : Params) : Prop := 0 < c.inchScale ∧ c.inchScale % 10 = 0 ∧ 0 < c.timeBits

namespace Config

/-- `STARTUP_PULSE_MS` of the machine that `State.reset` describes. OPEN, no default: free (log 5). -/
opaque startupPulseMs : BitVec 32

/-- `REPORT_PERIOD_MS` of the machine that `State.reset` describes. OPEN, no default: free (log 5). -/
opaque reportPeriodMs : Nat

/-- The free part of `RND` (R162): whether a quotient that is no integer is rounded up or down. R162's (1) and
(2) leave exactly this choice, one for each rational (log 6). -/
opaque roundUp : Rat → Bool

/-- The payload of an `EV_PUB_INCH` word whose value does not fit a 32-bit two's complement number: R91 states
none, so it is free (log 12). -/
opaque inchPayload : Int → BitVec 32

/-- The parameters of `State.reset`: the defaults of 92_eei_decisions.md and 95_test_vectors.md where the spec
states one, and zero for `MAX_RAW`. DESIGN CHOICE (log 4, unsafe); the last two free (log 5). -/
def params : Params where
  timeBits := 32
  minRaw := 0#32
  maxRaw := 0#32
  minH := 0#32
  inchScale := 1000
  dcLabelUp := 1#8
  dcLabelDown := 2#8
  selAttached := true
  startupPulseMs := startupPulseMs
  reportPeriodMs := reportPeriodMs

end Config
end Sys2Proof
end

