-- ==== Sys2Proof/Machine/State.lean ====
section
/-! DEFINITION. The architectural state of 10_state.md R20 to R46, as plain data, with the model's own fields
(boot order, clock premise, the environment's requests), the reasons a step stops, and the state after
reset. -/

namespace Sys2Proof.Machine

/-- `dec.sync` (R22): which byte of a frame the next `Feed` expects. -/
inductive Sync where
  | unsynced
  | sawFirstMarker
  | sawSecondMarker
  | expectHeight
deriving DecidableEq, Repr

/-- `hc.dir` (R37): the commands HC can give the actuator. `0b11` is no value. -/
inductive Dir where
  | stop
  | up
  | down
deriving DecidableEq, Repr

/-- An output event (30_encoding.md R90, R91). The value of `pubInch` is the integer `RawToH` gives; its event
word is `Event.word`. -/
inductive Event where
  /-- `EV_HEIGHT(byte)`, emitted by `FEED` only. -/
  | height (byte : Byte)
  /-- `EV_PRESS(det, state)`, emitted by `UPD` only; `true` is PressStart. -/
  | press (det : Button) (state : Bool)
  /-- `EV_DCLICK(det)`, emitted by `UPD` only. -/
  | dclick (det : Button)
  /-- `EV_DRV(dir)`, emitted by `Drive`. -/
  | drv (dir : Dir)
  /-- `EV_DELAY(ms)`, emitted by `INIT` only. -/
  | delay (ms : BitVec 32)
  /-- `EV_PUB_RAW(r)`, emitted by `SLOWTICK` only. -/
  | pubRaw (r : Byte)
  /-- `EV_PUB_INCH(h)`, emitted by `SLOWTICK` only. -/
  | pubInch (h : Int)
  /-- `EV_PUB_OPT(label)`, emitted by `Select` and `HeightChanged`. -/
  | pubOpt (label : Label)
deriving DecidableEq, Repr

/-- The decoder's state `dec` (R22 to R25). -/
structure Dec where
  /-- `dec.sync` (R22). -/
  sync : Sync
  /-- `dec.last` (R24). -/
  last : Option Byte
  /-- `dec.cur` (R23). -/
  cur : Option Byte
deriving DecidableEq, Repr

/-- A detector's state `btn[b]` (R26 to R32). -/
structure Btn where
  /-- `btn[b].rise` (R27). -/
  rise : Nat
  /-- `btn[b].prev_rise` (R27). -/
  prevRise : Nat
  /-- `btn[b].fall` (R28). -/
  fall : Nat
  /-- `btn[b].prev_fall` (R28). -/
  prevFall : Nat
  /-- `btn[b].level` (R29). -/
  level : Bool
  /-- `btn[b].disp` (R30). -/
  disp : Bool
  /-- `btn[b].lockout` (R31). -/
  lockout : Nat
deriving DecidableEq, Repr

/-- The controller's state `hc` (R34 to R38). -/
structure Hc where
  /-- `hc.cur` (R34). -/
  cur : Option Byte
  /-- `hc.tgt` (R35). -/
  tgt : Option Raw
  /-- `hc.rep` (R36). -/
  rep : Option Byte
  /-- `hc.dir` (R37). -/
  dir : Dir
deriving DecidableEq, Repr

/-- One pair of the preset list (R42). -/
structure Preset where
  /-- The label's id. -/
  label : Label
  /-- The stored height; absent for the sentinel at index 0. -/
  h : Option Height
deriving DecidableEq, Repr

/-- The selector's state `sel` (R42, R43). -/
structure Sel where
  /-- `sel.presets` (R42). -/
  presets : List Preset
  /-- `sel.idx` (R43). -/
  idx : Nat
deriving DecidableEq, Repr

/-- How far the boot order of 70_reset_and_hazards.md R256 has got. The model's own field (log 9). -/
inductive Boot where
  /-- Before the first `RESET`: the block has no state (60_exceptions.md R240). -/
  | unbuilt
  /-- Between `RESET` and `INIT`: configuration time (20_memory.md R74). -/
  | configuring
  /-- After `INIT`: the tick loop. -/
  | running
deriving DecidableEq, Repr

/-- How the environment asks for an operation (00_scope.md R14). The model's own (log 1). -/
inductive Request where
  /-- By its command word (30_encoding.md R84), where `TIME_BITS` is 32. -/
  | word (w : Command)
  /-- By the operation itself with its operands: R84 keeps the operations and drops the words for any other
  `TIME_BITS`. -/
  | op (i : Instr)
deriving DecidableEq, Repr

/-- The state of the block (R20), the parameters it is built with (R39), and the model's own fields. -/
structure State where
  /-- The decoder. -/
  dec : Dec
  /-- `btn[0]`, the `UP` detector. -/
  btnUp : Btn
  /-- `btn[1]`, the `DOWN` detector. -/
  btnDown : Btn
  /-- The controller. -/
  hc : Hc
  /-- `rxq` (R40), oldest first. -/
  rxq : List Byte
  /-- The selector. -/
  sel : Sel
  /-- `out` (R44), oldest first. -/
  out : List Event
  /-- The parameters of R39 and R8: read, never written (log 4). -/
  cfg : Params
  /-- The model's own: the boot order (log 9). -/
  boot : Boot
  /-- The model's own: the greatest `now` of the trace so far (60_exceptions.md R236; log 8). -/
  lastNow : Nat
  /-- The model's own: what the environment has asked for and the block has not yet done, oldest first (log 1). -/
  cmds : List Request
deriving DecidableEq, Repr

/-- Why the machine stops with a fault: for no reason. The block raises no exception and a model of it has no
fault state (60_exceptions.md R220, 93_implementation_defined.md), so there is no constructor. Safe. -/
inductive Fault where
deriving DecidableEq, Repr

/-- Why a step is refused: the situations X1 to X5 to which 93_implementation_defined.md gives no meaning, and a
command word where R84 gives none. All safe: nothing is claimed of such a trace. -/
inductive Refusal where
  /-- No meaning yet for an operation; raised by no arm of `exec`. Safe. -/
  | notModelled (mnemonic : String)
  /-- X3: a command word with a reserved opcode; raised by `step` (30_encoding.md R88). Safe. -/
  | reservedOpcode
  /-- X3: a command word with a must-be-zero bit set; raised by `step` (R88). Safe. -/
  | mustBeZero
  /-- A command word where `TIME_BITS` is not 32, for which R84 drops the encoding; raised by `step` (log 7). Safe. -/
  | noEncoding
  /-- X1: `now + 1000` reaches `2^TIME_BITS`; raised by `RESET`, `TICK`, `UPD` (60_exceptions.md R236). Safe. -/
  | clockWrap
  /-- X2: `now` is less than an earlier `now` of the trace; raised by `TICK`, `UPD` (R236). Safe. -/
  | clockBackwards
  /-- X4: an operation before the first `RESET`; raised by every operation but `RESET` (R256). Safe. -/
  | beforeReset
  /-- X4: `TICK` before `INIT` (R256). Safe. -/
  | tickBeforeInit
  /-- X4: a second `INIT` after one `RESET` (R256). Safe. -/
  | initTwice
  /-- X4: `ADDP` after `INIT` (R201, R256). Safe. -/
  | addpAfterInit
  /-- X5: a converted target outside the signed 32-bit range; raised by `SETT`, and by `SEL` and `TICK` through
  `SetTarget` (43_height_controller.md R162). Safe. -/
  | targetOutOfRange
deriving DecidableEq, Repr

/-- `dec` after reset (R46). -/
def Dec.reset : Dec := { sync := .unsynced, last := none, cur := none }

/-- `btn[b]` after a reset that leaves the lockout deadline `lockout` (R46). -/
def Btn.reset (lockout : Nat) : Btn :=
  { rise := 0, prevRise := 0, fall := 0, prevFall := 0, level := false, disp := false,
    lockout := lockout }

/-- `hc` after reset (R46). -/
def Hc.reset : Hc := { cur := none, tgt := none, rep := none, dir := .stop }

/-- `sel` after reset (R46). -/
def Sel.reset : Sel := { presets := [{ label := lblNone, h := none }], idx := 0 }

/-- The machine right after reset: the state R46 gives for `RESET 0` (the reset time is a DESIGN CHOICE, log 3),
with the parameters of `Config.params` (log 4) and no request waiting. -/
def State.reset : State where
  dec := Dec.reset
  btnUp := Btn.reset 1000
  btnDown := Btn.reset 1000
  hc := Hc.reset
  rxq := []
  sel := Sel.reset
  out := []
  cfg := Config.params
  boot := .configuring
  lastNow := 0
  cmds := []

end Sys2Proof.Machine
end

