-- ==== Sys2Proof/Machine/Operands.lean ====
section
/-! DEFINITION. How the rules read operands, pins and enumerations: integers of times and heights (00_scope.md
R10, R11), the inverted pins (43_height_controller.md R174), the encodings of 30_encoding.md R92 and R93. -/

namespace Sys2Proof.Machine

/-- A time as the rules read it (R11): a mathematical integer of milliseconds. -/
def ms (t : Nat) : Int := (t : Int)

/-- A requested or stored height as the rules read it (R85: `sext_32`). -/
def Height.units (h : Height) : Int := h.toInt

/-- A raw target as the rules read it (R35): a signed integer. -/
def Raw.count (r : Raw) : Int := r.toInt

/-- A height byte as the rules read it (R82, R172: `zext_8`): an unsigned integer of raw units. -/
def Byte.count (b : Byte) : Int := (b.toNat : Int)

/-- The pressed level of a raw pin (R85, R93, R174): active low, so 0 is pressed. -/
def pressedLevel (pin : Bool) : Bool := !pin

/-- The direction a button drives (R26, R174). -/
def buttonDir : Button → Dir
  | .up => .up
  | .down => .down

/-- `DC_LABEL[b]` (R174). -/
def Params.dcLabel (c : Params) : Button → Label
  | .up => c.dcLabelUp
  | .down => c.dcLabelDown

/-- `btn[b]` (R26). -/
def State.btn (s : State) : Button → Btn
  | .up => s.btnUp
  | .down => s.btnDown

/-- `btn[b] <- v` (R12). -/
def State.setBtn (s : State) (b : Button) (v : Btn) : State :=
  match b with
  | .up => { s with btnUp := v }
  | .down => { s with btnDown := v }

/-- The encoding of `dec.sync` (R22, R92). -/
def Sync.bits : Sync → BitVec 2
  | .unsynced => 0b00#2
  | .sawFirstMarker => 0b01#2
  | .sawSecondMarker => 0b10#2
  | .expectHeight => 0b11#2

/-- The `dec.sync` value with a given encoding (R22: all four are legal). -/
def Sync.ofBits (v : BitVec 2) : Sync :=
  match v.toNat with
  | 0 => .unsynced
  | 1 => .sawFirstMarker
  | 2 => .sawSecondMarker
  | _ => .expectHeight

/-- The encoding of `hc.dir` (R37, R92). -/
def Dir.bits : Dir → BitVec 2
  | .stop => 0b00#2
  | .up => 0b01#2
  | .down => 0b10#2

/-- The output pin `up_out` = `hc.dir[0]`, active high (R37, R93). -/
def State.upOut (s : State) : Bool := s.hc.dir.bits.getLsbD 0

/-- The output pin `down_out` = `hc.dir[1]`, active high (R37, R93). -/
def State.downOut (s : State) : Bool := s.hc.dir.bits.getLsbD 1

/-- The value an `Opt T` encoding stands for (R92): one valid bit above the bits of `T`; when it is 0 the value
bits are not read. -/
def optOfBits {n : Nat} (v : BitVec (n + 1)) : Option (BitVec n) :=
  if v.getLsbD n then some (v.setWidth n) else none

/-- The controller's mode (R38): a function of `hc.tgt`. ARRIVED is transient and is no value between operations. -/
inductive Mode where
  | idle
  | seeking
deriving DecidableEq, Repr

/-- The mode of a state (R38). -/
def State.mode (s : State) : Mode :=
  match s.hc.tgt with
  | none => .idle
  | some _ => .seeking

/-- The wire frame that carries a height byte (R81): three markers, then the byte. -/
def frameBytes (height : Byte) : List Byte := List.replicate preambleLen marker ++ [height]

/-- The 32-bit two's complement payload of an inches value (R91); free where the value does not fit (log 12). -/
def inchPayload (h : Int) : BitVec 32 :=
  if -2 ^ 31 ≤ h ∧ h < 2 ^ 31 then BitVec.ofInt 32 h else Config.inchPayload h

/-- An event word (R90): code in `EW[35:32]`, payload in `EW[31:0]`. -/
def eventWord (code : BitVec 4) (payload : BitVec 32) : EventWord := code ++ payload

/-- The event word of an event (R91). -/
def Event.word : Event → EventWord
  | .height byte => eventWord 0x1#4 (byte.setWidth 32)
  | .press det state => eventWord 0x2#4 ((BitVec.ofBool det.bit ++ BitVec.ofBool state).setWidth 32)
  | .dclick det => eventWord 0x3#4 ((BitVec.ofBool det.bit ++ 0#1).setWidth 32)
  | .drv dir => eventWord 0x4#4 (dir.bits.setWidth 32)
  | .delay ms => eventWord 0x5#4 ms
  | .pubRaw r => eventWord 0x6#4 (r.setWidth 32)
  | .pubInch h => eventWord 0x7#4 (inchPayload h)
  | .pubOpt label => eventWord 0x8#4 (label.setWidth 32)

end Sys2Proof.Machine
end

