-- ==== Sys2Proof/Machine/Flags.lean ====
section
/-! DEFINITION. The detector's flags and conditions (42_edge_detector.md R131 to R136): edge capture, the
press/hold test with its de-duplicated dispatch, and the double-click test. Times are compared and subtracted as
integers (00_scope.md R11). -/

namespace Sys2Proof.Machine

/-- Step 1 of `Upd`, edge capture (R132). -/
def captureEdge (level : Bool) (now : Nat) (b : Btn) : Btn :=
  if level = b.level then b
  else if level then { b with prevRise := b.rise, rise := now, level := level }
  else { b with prevFall := b.fall, fall := now, level := level }

/-- The held test of R133: the last rising edge is later than the last falling edge. -/
def held (b : Btn) : Bool := decide (ms b.fall < ms b.rise)

/-- The press state of R133: held for more than `HOLD_MS`. -/
def pressed (now : Nat) (b : Btn) : Bool := held b && decide (ms now - ms b.rise > holdMs)

/-- Condition (a) of R136: the two rising edges are less than `DC_GAP_MS` apart. -/
def dcGap (b : Btn) : Bool := decide (ms b.rise - ms b.prevRise < dcGapMs)

/-- Condition (b) of R136: the last falling edge is less than `DC_RELEASE_MS` ago. -/
def dcRelease (now : Nat) (b : Btn) : Bool := decide (ms now - ms b.fall < dcReleaseMs)

/-- Condition (c) of R136: the previous rising edge is later than the lockout deadline. -/
def dcUnlocked (b : Btn) : Bool := decide (ms b.prevRise > ms b.lockout)

/-- The double-click test of R136: exactly the three listed conditions. -/
def doubleClick (now : Nat) (b : Btn) : Bool := dcGap b && dcRelease now b && dcUnlocked b

/-- The lockout deadline a double-click at `now` leaves (R136): `now + LOCKOUT_MS`. -/
def lockoutFrom (now : Nat) : Nat := now + lockoutMs

end Sys2Proof.Machine
end

