-- ==== Sys2Proof/WellFormed.lean ====
section
/-! DEFINITION. Which operations and which traces the rules are stated for: the operand widths but that of `now`
hold by the types of `Instr`; here are the clock premise on one operand (60_exceptions.md R236 (2)), for each width of
the clock (00_scope.md R8), and the shape of a trace (70_reset_and_hazards.md R256). -/

namespace Sys2Proof

/-- R236 (2): `now + ms` stays below `2^TIME_BITS`, for the width `bits` of the clock (R8). -/
def timeFits (bits ms : Nat) (now : Nat) : Bool := decide (now + ms < 2 ^ bits)

/-- An operation whose operands meet the premise its rule puts on them alone: `now + 1000 < 2^TIME_BITS` for
`RESET` (R165), `TICK` (R169) and `UPD` (R131); the others have no such premise. -/
def Instr.wellFormed (bits : Nat) : Instr → Bool
  | .reset now => timeFits bits Machine.bootLockoutMs now
  | .init => true
  | .rxb _ => true
  | .tick now _ _ => timeFits bits Machine.lockoutMs now
  | .slowtick => true
  | .sett _ => true
  | .feed _ => true
  | .upd now _ _ => timeFits bits Machine.lockoutMs now
  | .sel _ => true
  | .hchg => true
  | .addp _ _ => true

/-- The rest of a trace after a `RESET` (R256): `inited` says whether `INIT` has occurred since, `last` is the
greatest `now` so far. -/
def traceTailWellFormed (bits : Nat) (inited : Bool) (last : Nat) : List Instr → Bool
  | [] => true
  | i :: rest =>
    i.wellFormed bits &&
      match i with
      | .reset now => traceTailWellFormed bits false now rest
      | .init => !inited && traceTailWellFormed bits true last rest
      | .rxb _ => traceTailWellFormed bits inited last rest
      | .tick now _ _ => inited && decide (last ≤ now) && traceTailWellFormed bits inited now rest
      | .slowtick => traceTailWellFormed bits inited last rest
      | .sett _ => traceTailWellFormed bits inited last rest
      | .feed _ => traceTailWellFormed bits inited last rest
      | .upd now _ _ => decide (last ≤ now) && traceTailWellFormed bits inited now rest
      | .sel _ => traceTailWellFormed bits inited last rest
      | .hchg => traceTailWellFormed bits inited last rest
      | .addp _ _ => !inited && traceTailWellFormed bits inited last rest

/-- A well-formed trace (R16, R256): it starts with a `RESET`, `TICK` stands only after `INIT`, `ADDP` only before
it, `INIT` at most once for each `RESET`, and every `now` obeys the clock premise. A further `RESET` starts a new
trace (R165). The empty sequence is the trace in which nothing happens. -/
def traceWellFormed (bits : Nat) : List Instr → Bool
  | [] => true
  | .reset now :: rest => timeFits bits Machine.bootLockoutMs now && traceTailWellFormed bits false now rest
  | _ => false

end Sys2Proof
end

