-- ==== Sys2Proof/Machine/Ops.lean ====
section
/-! DEFINITION. The primitives of 00_scope.md R13 and the premises of the operation rules, once each; the
operations of Machine/<Family>.lean are written over them. The block takes no exception and returns from none
(60_exceptions.md R220, R226, R227), so there is no operation for either. -/

namespace Sys2Proof.Machine

/-- What an operation answers. -/
abbrev Result := Host.Outcome State Fault Refusal

/-- Go on with `f` if `o` answers a next state; a stop stays a stop. -/
def andThen (o : Result) (f : State → Result) : Result :=
  match o with
  | .next s => f s
  | .fault r => .fault r
  | .refused r => .refused r

/-! ## Premises (70_reset_and_hazards.md R256, 60_exceptions.md R236) -/

/-- No operation but `RESET` stands before the first `RESET` (R256, X4). -/
def afterReset (s : State) (k : Result) : Result :=
  match s.boot with
  | .unbuilt => .refused .beforeReset
  | .configuring => k
  | .running => k

/-- The clock premise of R236 at `now`, which then is the latest time of the trace: no wrap (X1), monotonic (X2). -/
def atTime (now : Nat) (s : State) (k : State → Result) : Result :=
  if timeFits s.cfg.timeBits lockoutMs now then
    if ms s.lastNow ≤ ms now then k { s with lastNow := now } else .refused .clockBackwards
  else .refused .clockWrap

/-! ## Outputs -/

/-- `Emit(e)` (30_encoding.md R90). -/
def emit (e : Event) (s : State) : State := { s with out := s.out ++ [e] }

/-- `Drive(d)` (43_height_controller.md R164). -/
def drive (d : Dir) (s : State) : State := emit (.drv d) { s with hc := { s.hc with dir := d } }

/-! ## Receive queue and decoder -/

/-- `RxPop()` (20_memory.md R63): the oldest byte and the state without it. -/
def rxPop (s : State) : Option (Byte × State) :=
  match s.rxq with
  | [] => none
  | b :: rest => some (b, { s with rxq := rest })

/-- The stage after a matched marker: `dec.sync + 1` (41_decoder.md R111). -/
def Sync.succ : Sync → Sync
  | .unsynced => .sawFirstMarker
  | .sawFirstMarker => .sawSecondMarker
  | .sawSecondMarker => .expectHeight
  | .expectHeight => .unsynced

/-- `Feed(byte)` (R111): the decoder after the byte, and the height it surfaces. -/
def feed (byte : Byte) (d : Dec) : Dec × Option Byte :=
  match d.sync with
  | .expectHeight =>
    ({ sync := .unsynced, last := d.cur, cur := some byte }, if some byte = d.cur then some byte else none)
  | _ => ({ d with sync := if byte = marker then d.sync.succ else .unsynced }, none)

/-! ## Detector -/

/-- What `Upd` answers (42_edge_detector.md R131). -/
structure UpdResult where
  /-- The detector after the step. -/
  btn : Btn
  /-- The press event, if one is dispatched (R134). -/
  press : Option Bool
  /-- Whether a double-click fires (R136). -/
  dclick : Bool
deriving DecidableEq, Repr

/-- Step 2 of `Upd` (R133, R134): the new `disp`, and the press event. -/
def dispatchPress (now : Nat) (b : Btn) : Btn × Option Bool :=
  if pressed now b = b.disp then (b, none) else ({ b with disp := pressed now b }, some (pressed now b))

/-- Step 3 of `Upd` (R136): a double-click that fires sets the lockout deadline. -/
def fireDoubleClick (now : Nat) (b : Btn) : Btn × Bool :=
  if doubleClick now b then ({ b with lockout := lockoutFrom now }, true) else (b, false)

/-- `Upd(b, level, now)` on the detector `b` (R131). -/
def upd (level : Bool) (now : Nat) (b : Btn) : UpdResult :=
  let p := dispatchPress now (captureEdge level now b)
  let c := fireDoubleClick now p.1
  { btn := c.1, press := p.2, dclick := c.2 }

/-! ## Conversions -/

/-- `RND` (43_height_controller.md R162) of the exact quotient `num / den`: the quotient itself when it is an
integer, else one of the two integers next to it, which one being free (log 6). -/
def rnd (num : Int) (den : Nat) : Int :=
  if num % (den : Int) = 0 then num / (den : Int)
  else if Config.roundUp (mkRat num den) then num / (den : Int) + 1
  else num / (den : Int)

/-- `RawToH(r)` (R161). -/
def rawToH (c : Params) (r : Int) : Int :=
  (r - Raw.count c.minRaw) * ((c.inchScale / rawPerInch : Nat) : Int) + Height.units c.minH

/-- `InchesToRaw(h)` (R162), before the range check. -/
def inchesToRaw (c : Params) (h : Int) : Int :=
  rnd ((h - Height.units c.minH) * (rawPerInch : Int)) c.inchScale + Raw.count c.minRaw

/-- Whether an integer is a signed 32-bit `Raw` (R35, R162). -/
def fitsRaw (r : Int) : Bool := decide (-2 ^ 31 ≤ r ∧ r < 2 ^ 31)

/-! ## Target and selector -/

/-- `hc.tgt <- t` (R12, R35). -/
def writeTgt (t : Option Raw) (s : State) : State := { s with hc := { s.hc with tgt := t } }

/-- `SetTarget(h)` (R168); a converted target outside 32 bits is refused (R162, X5). -/
def setTarget (h : Height) (s : State) : Result :=
  if 0 < Height.units h then
    if fitsRaw (inchesToRaw s.cfg (Height.units h)) then
      .next (writeTgt (some (BitVec.ofInt 32 (inchesToRaw s.cfg (Height.units h)))) s)
    else .refused .targetOutOfRange
  else .next (writeTgt none s)

/-- `sel.idx <- i` (R43). -/
def writeIdx (i : Nat) (s : State) : State := { s with sel := { s.sel with idx := i } }

/-- `Lookup(label)` (44_preset_selector.md R202): the least index with that label. -/
def lookup (label : Label) : List Preset → Option Nat
  | [] => none
  | p :: rest => if p.label = label then some 0 else (lookup label rest).map (· + 1)

/-- The stored height of preset `i`, if the pair exists and holds one (R42). -/
def presetHeight (i : Nat) (s : State) : Option Height :=
  match s.sel.presets[i]? with
  | some p => p.h
  | none => none

/-- The line `if i != 0 then SetTarget(sel.presets[i].h)` of R203. R203 notes that the height is present for every
`i != 0`; a pair without one, which no run reaches, contributes no move (log 13). -/
def forwardPreset (i : Nat) (s : State) : Result :=
  if i = 0 then .next s
  else
    match presetHeight i s with
    | some h => setTarget h s
    | none => .next s

/-- `Select(label)` (R203). -/
def select (label : Label) (s : State) : Result :=
  match lookup label s.sel.presets with
  | none => .next s
  | some i => andThen (forwardPreset i s) fun t => .next (emit (.pubOpt label) (writeIdx i t))

/-- `HeightChanged()` (R204). -/
def heightChanged (s : State) : State := emit (.pubOpt lblNone) (writeIdx 0 s)

/-- `NotifyManual()` (43_height_controller.md R174). -/
def notifyManual (s : State) : State := if s.cfg.selAttached then heightChanged s else s

/-- `RequestPreset(l)` (R174). -/
def requestPreset (label : Label) (s : State) : Result :=
  if s.cfg.selAttached then select label s else .next s

end Sys2Proof.Machine
end

