-- ==== Sys2Proof/Machine/Boot.lean ====
section
/-! DEFINITION. Construction and start-up: `RESET` and `INIT` (43_height_controller.md R165, R166). -/

namespace Sys2Proof.Machine

/-- The state `RESET now` leaves (10_state.md R46). The parameters are supplied again by the configuration layer
(R39; log 14), and the environment's waiting requests are not the block's to clear. -/
def constructed (now : Nat) (s : State) : State where
  dec := { sync := .unsynced, last := none, cur := none }
  btnUp := Btn.reset (now + bootLockoutMs)
  btnDown := Btn.reset (now + bootLockoutMs)
  hc := { cur := none, tgt := none, rep := none, dir := .stop }
  rxq := []
  sel := { presets := [{ label := lblNone, h := none }], idx := 0 }
  out := []
  cfg := s.cfg
  boot := .configuring
  lastNow := now
  cmds := s.cmds

/-- `RESET now` (R165). -/
def execReset (now : Nat) (s : State) : Result :=
  if timeFits s.cfg.timeBits bootLockoutMs now then .next (constructed now s) else .refused .clockWrap

/-- The start-up pulse of `INIT` (R166): Stop, Up, the delay, Stop. -/
def startupPulse (s : State) : State :=
  drive .stop (emit (.delay s.cfg.startupPulseMs) (drive .up (drive .stop s)))

/-- `INIT` (R166), at most once for each `RESET` (70_reset_and_hazards.md R256). -/
def execInit (s : State) : Result :=
  match s.boot with
  | .unbuilt => .refused .beforeReset
  | .configuring => .next (startupPulse { s with boot := .running })
  | .running => .refused .initTwice

end Sys2Proof.Machine
end

