-- ==== Sys2Proof/Machine/Controller.lean ====
section
/-! DEFINITION. HC: `RXB`, `SETT`, `TICK` and `SLOWTICK` (43_height_controller.md R167 to R176). -/

namespace Sys2Proof.Machine

/-- `RXB byte` (R167). -/
def execRxb (byte : Byte) (s : State) : Result := afterReset s (.next { s with rxq := s.rxq ++ [byte] })

/-- `SETT h` (R168). -/
def execSett (h : Height) (s : State) : Result := afterReset s (setTarget h s)

/-! ## `TICK` -/

/-- One byte of the receive phase (R170): it is fed, and a surfaced height becomes `hc.cur`. -/
def receiveByte (byte : Byte) (s : State) : State :=
  let r := feed byte s.dec
  match r.2 with
  | some v => { s with dec := r.1, hc := { s.hc with cur := some v } }
  | none => { s with dec := r.1 }

/-- The receive loop of R169, for as many turns as `rxq` held bytes. -/
def receiveLoop : Nat → State → State
  | 0, s => s
  | k + 1, s =>
    match rxPop s with
    | some (b, t) => receiveLoop k (receiveByte b t)
    | none => s

/-- Phase 1 of `TICK` (R170): `rxq` is drained, oldest byte first. -/
def receive (s : State) : State := receiveLoop s.rxq.length s

/-- `SeekStep(t)` (R172); with no current height nothing happens (R178). -/
def seekStep (t : Raw) (s : State) : State :=
  match s.hc.cur with
  | none => s
  | some c =>
    let diff := Byte.count c - Raw.count t
    if diff < -(tol : Int) then drive .up s
    else if diff > (tol : Int) then drive .down s
    else writeTgt none (drive .stop s)

/-- The reaction to a press event of button `b` (R174, R175). -/
def pressReaction (b : Button) (press : Option Bool) (s : State) : State :=
  match press with
  | some true => notifyManual (drive (buttonDir b) s)
  | some false => notifyManual (drive .stop s)
  | none => s

/-- The reaction to a double-click of button `b` (R174, R175). -/
def dclickReaction (b : Button) (dclick : Bool) (s : State) : Result :=
  if dclick then requestPreset (Params.dcLabel s.cfg b) s else .next s

/-- The turn of button `b` in `IdleStep` (R174). -/
def buttonStep (b : Button) (level : Bool) (now : Nat) (s : State) : Result :=
  let r := upd level now (State.btn s b)
  dclickReaction b r.dclick (pressReaction b r.press (State.setBtn s b r.btn))

/-- `IdleStep(now, lvl_up, lvl_down)` (R174): `UP` first. -/
def idleStep (now : Nat) (up down : Bool) (s : State) : Result :=
  andThen (buttonStep .up up now s) (buttonStep .down down now)

/-- Phase 2 of `TICK` (R169, R171): one of two branches, chosen once. -/
def actPhase (now : Nat) (upN downN : Bool) (s : State) : Result :=
  match s.hc.tgt with
  | some t => .next (seekStep t s)
  | none => idleStep now (pressedLevel upN) (pressedLevel downN) s

/-- The body of `TICK` (R169). -/
def tickBody (now : Nat) (upN downN : Bool) (s : State) : Result := actPhase now upN downN (receive s)

/-- `TICK now, up_n, down_n` (R169), after `INIT` (70_reset_and_hazards.md R256) and under the clock premise. -/
def execTick (now : Nat) (upN downN : Bool) (s : State) : Result :=
  match s.boot with
  | .unbuilt => .refused .beforeReset
  | .configuring => .refused .tickBeforeInit
  | .running => atTime now s (tickBody now upN downN)

/-! ## `SLOWTICK` -/

/-- The report of R176: raw value, inches value, then `hc.rep`. -/
def report (s : State) : State :=
  match s.hc.cur with
  | none => s
  | some c =>
    if s.hc.rep = some c then s
    else
      let t := emit (.pubInch (rawToH s.cfg (Byte.count c))) (emit (.pubRaw c) s)
      { t with hc := { t.hc with rep := some c } }

/-- `SLOWTICK` (R176). -/
def execSlowtick (s : State) : Result := afterReset s (.next (report s))

end Sys2Proof.Machine
end

