-- ==== Sys2Proof/Machine/Decoder.lean ====
section
/-! DEFINITION. The leaf operation of DEC: `FEED` (41_decoder.md R119). -/

namespace Sys2Proof.Machine

/-- The event line of `FEED` (R119). -/
def emitHeight (r : Option Byte) (s : State) : State :=
  match r with
  | some v => emit (.height v) s
  | none => s

/-- The body of `FEED` (R119): the decoder steps, `hc.cur` is not written. -/
def feedLeaf (byte : Byte) (s : State) : State :=
  emitHeight (feed byte s.dec).2 { s with dec := (feed byte s.dec).1 }

/-- `FEED byte` (R119). -/
def execFeed (byte : Byte) (s : State) : Result := afterReset s (.next (feedLeaf byte s))

end Sys2Proof.Machine
end

