-- ==== Sys2Proof/Machine/Detector.lean ====
section
/-! DEFINITION. The leaf operation of BTN: `UPD` (42_edge_detector.md R142). -/

namespace Sys2Proof.Machine

/-- The press line of `UPD` (R142). -/
def emitPress (det : Button) (press : Option Bool) (s : State) : State :=
  match press with
  | some p => emit (.press det p) s
  | none => s

/-- The double-click line of `UPD` (R142). -/
def emitDclick (det : Button) (dclick : Bool) (s : State) : State :=
  if dclick then emit (.dclick det) s else s

/-- The body of `UPD` (R142): one detector steps and HC does not react. -/
def updLeaf (now : Nat) (level : Bool) (det : Button) (s : State) : State :=
  let r := upd level now (State.btn s det)
  emitDclick det r.dclick (emitPress det r.press (State.setBtn s det r.btn))

/-- `UPD now, level, det` (R142), under the clock premise (R131). -/
def execUpd (now : Nat) (level : Bool) (det : Button) (s : State) : Result :=
  afterReset s (atTime now s fun t => .next (updLeaf now level det t))

end Sys2Proof.Machine
end

