-- ==== Sys2Proof/Machine/Selector.lean ====
section
/-! DEFINITION. SEL: `ADDP`, `SEL` and `HCHG` (44_preset_selector.md R201 to R204). -/

namespace Sys2Proof.Machine

/-- The body of `ADDP` (R201). -/
def appendPreset (label : Label) (h : Height) (s : State) : State :=
  { s with sel := { s.sel with presets := s.sel.presets ++ [{ label := label, h := some h }] } }

/-- `ADDP label, h` (R201), only between `RESET` and `INIT` (70_reset_and_hazards.md R256). -/
def execAddp (label : Label) (h : Height) (s : State) : Result :=
  match s.boot with
  | .unbuilt => .refused .beforeReset
  | .configuring => .next (appendPreset label h s)
  | .running => .refused .addpAfterInit

/-- `SEL label` (R203). -/
def execSel (label : Label) (s : State) : Result := afterReset s (select label s)

/-- `HCHG` (R204). -/
def execHchg (s : State) : Result := afterReset s (.next (heightChanged s))

end Sys2Proof.Machine
end

