-- ==== Sys2Proof/Machine/Dispatch.lean ====
section
/-! DEFINITION. One arm per operation, each a call of its meaning. -/

namespace Sys2Proof.Machine

def exec (i : Instr) (s : State) : Host.Outcome State Fault Refusal :=
  match i with
  | .reset now => Sys2Proof.Machine.execReset now s
  | .init => Sys2Proof.Machine.execInit s
  | .rxb byte => Sys2Proof.Machine.execRxb byte s
  | .tick now upN downN => Sys2Proof.Machine.execTick now upN downN s
  | .slowtick => Sys2Proof.Machine.execSlowtick s
  | .sett h => Sys2Proof.Machine.execSett h s
  | .feed byte => Sys2Proof.Machine.execFeed byte s
  | .upd now level det => Sys2Proof.Machine.execUpd now level det s
  | .sel label => Sys2Proof.Machine.execSel label s
  | .hchg => Sys2Proof.Machine.execHchg s
  | .addp label h => Sys2Proof.Machine.execAddp label h s

end Sys2Proof.Machine
end

