-- ==== Sys2Proof/Machine/Fetch.lean ====
section
/-! DEFINITION. How the next operation is taken from the environment (00_scope.md R14; log 1): the oldest waiting
request, read as an operation. -/

namespace Sys2Proof.Machine

/-- The oldest waiting request and the state without it; `none` when none waits. -/
def takeRequest (s : State) : Option (Request × State) :=
  match s.cmds with
  | [] => none
  | q :: rest => some (q, { s with cmds := rest })

/-- The refusal that stands for a word that encodes no operation (30_encoding.md R88). -/
def refusalOf : DecodeError → Refusal
  | .reservedOpcode => .reservedOpcode
  | .mustBeZero => .mustBeZero

/-- The operation a command word asks for where the clock has `timeBits` bits: what it decodes to if that is the
width its format is defined for (R84), else none. -/
def readWord (timeBits : Nat) (w : Command) : Except Refusal Instr :=
  if timeBits = wordTimeBits then
    match decode w with
    | .ok i => .ok i
    | .error e => .error (refusalOf e)
  else .error .noEncoding

/-- The operation a request asks for. -/
def readRequest (timeBits : Nat) : Request → Except Refusal Instr
  | .word w => readWord timeBits w
  | .op i => .ok i

/-- The state with a command word placed before the waiting requests. -/
def pushCommand (w : Command) (s : State) : State := { s with cmds := .word w :: s.cmds }

end Sys2Proof.Machine
end

