-- ==== Sys2Proof/Machine/Step.lean ====
section
/-! DEFINITION. One step: the oldest waiting request is taken, read as an operation and executed; with none
waiting nothing happens (70_reset_and_hazards.md R269; log 2). -/

namespace Sys2Proof.Machine

/-- One step of the machine. -/
def step (s : State) : Host.Outcome State Fault Refusal :=
  match takeRequest s with
  | none => .next s
  | some (q, t) =>
    match readRequest t.cfg.timeBits q with
    | .error r => .refused r
    | .ok i => exec i t

/-- `s` with the word of a table row waiting before every other request, so that the next step runs it; a
number that is no command word leaves `s` as it is. -/
def State.withFetchWord (s : State) (nbits w : Nat) : State :=
  match commandOfBits nbits w with
  | none => s
  | some c => pushCommand c s

end Sys2Proof.Machine
end

