-- ==== Sys2Proof/Machine/Text.lean ====
section
/-! DEFINITION. The textual form of a trace (30_encoding.md R94) and the pseudo-operations (R95). The layout of a line
beyond R94's words (blanks, empty lines, hexadecimal digits of both cases) is the model's (log 20). The machine does
not read text: a trace is assembled to operations, and those, for a 32-bit clock, to command words (`encode`). -/

namespace Sys2Proof

/-! ## Pseudo-operations -/

/-- A pseudo-operation (R95). -/
inductive Pseudo where
  /-- `FRAME b`: queue one well-formed frame. -/
  | frame (b : Byte)
  /-- `FFRAME b`: feed one well-formed frame to the leaf decoder. -/
  | fframe (b : Byte)
  /-- `TICKI now`: a tick with both buttons released. -/
  | ticki (now : Nat)
  /-- `CLEAR`: clear the target. -/
  | clear
  /-- `BOOT now`: construct and start up, with no presets. -/
  | boot (now : Nat)
deriving DecidableEq, Repr

/-- The expansion of a pseudo-operation (R95). -/
def Pseudo.expand : Pseudo → List Instr
  | .frame b => [.rxb 0x01#8, .rxb 0x01#8, .rxb 0x01#8, .rxb b]
  | .fframe b => [.feed 0x01#8, .feed 0x01#8, .feed 0x01#8, .feed b]
  | .ticki now => [.tick now true true]
  | .clear => [.sett 0#32]
  | .boot now => [.reset now, .init]

/-! ## Writing -/

/-- A number in decimal. -/
def natText (n : Nat) : List Char := Nat.toDigits 10 n

/-- A height in decimal, a negative one with a minus sign (R94). -/
def heightText (h : Height) : List Char :=
  if h.toInt < 0 then '-' :: natText (-h.toInt).toNat else natText h.toInt.toNat

/-- One bit as a number. -/
def bitText (b : Bool) : List Char := natText b.toNat

/-- The operands of an operation in the order of R86. -/
def Instr.operandTexts : Instr → List (List Char)
  | .reset now => [natText now]
  | .init => []
  | .rxb byte => [natText byte.toNat]
  | .tick now upN downN => [natText now, bitText upN, bitText downN]
  | .slowtick => []
  | .sett h => [heightText h]
  | .feed byte => [natText byte.toNat]
  | .upd now level det => [natText now, bitText level, natText (match det with | .up => 0 | .down => 1)]
  | .sel label => [natText label.toNat]
  | .hchg => []
  | .addp label h => [natText label.toNat, heightText h]

/-- An operation on one line: `MNEMONIC operand, operand, ...` (R94). -/
def Instr.text (i : Instr) : List Char :=
  match i.operandTexts with
  | [] => i.mnemonic.toList
  | ops => i.mnemonic.toList ++ [' '] ++ [',', ' '].intercalate ops

/-! ## Reading -/

/-- A blank inside a line. -/
def isBlank (c : Char) : Bool := c = ' ' || c = '\t' || c = '\r'

/-- A piece of a line without the blanks around it. -/
def trim (cs : List Char) : List Char := (((cs.dropWhile isBlank).reverse).dropWhile isBlank).reverse

/-- The pieces of a text between the occurrences of a separator. -/
def pieces (sep : Char) : List Char → List (List Char)
  | [] => [[]]
  | c :: rest =>
    if c = sep then [] :: pieces sep rest
    else
      match pieces sep rest with
      | [] => [[c]]
      | p :: ps => (c :: p) :: ps

/-- The value of a digit, hexadecimal digits in either case. -/
def digitValue (c : Char) : Option Nat :=
  if '0' ≤ c ∧ c ≤ '9' then some (c.toNat - '0'.toNat)
  else if 'a' ≤ c ∧ c ≤ 'f' then some (c.toNat - 'a'.toNat + 10)
  else if 'A' ≤ c ∧ c ≤ 'F' then some (c.toNat - 'A'.toNat + 10)
  else none

/-- The number that digits of base `base` continue from `acc`. -/
def digitsFrom (base : Nat) : Nat → List Char → Option Nat
  | acc, [] => some acc
  | acc, c :: rest =>
    match digitValue c with
    | none => none
    | some d => if d < base then digitsFrom base (acc * base + d) rest else none

/-- A number in decimal or `0x` hexadecimal (R94); at least one digit. -/
def readNat : List Char → Option Nat
  | [] => none
  | ['0', 'x'] => none
  | '0' :: 'x' :: ds => digitsFrom 16 0 ds
  | ds => digitsFrom 10 0 ds

/-- An unsigned operand of `n` bits (R84); `now`, whose width is a parameter (R8), is read by `readNat`. -/
def readBits (n : Nat) (cs : List Char) : Option (BitVec n) :=
  match readNat cs with
  | none => none
  | some v => if v < 2 ^ n then some (BitVec.ofNat n v) else none

/-- A one-bit operand. -/
def readBit (cs : List Char) : Option Bool := (readBits 1 cs).map fun b => b.getLsbD 0

/-- The operand `det` (R92). -/
def readDet (cs : List Char) : Option Button := (readBit cs).map fun b => if b then .down else .up

/-- The operand `h`: a signed 32-bit number, negative with a minus sign (R85, R94). -/
def readHeight : List Char → Option Height
  | '-' :: ds =>
    match readNat ds with
    | none => none
    | some v => if v ≤ 2 ^ 31 then some (BitVec.ofInt 32 (-(v : Int))) else none
  | ds =>
    match readNat ds with
    | none => none
    | some v => if v < 2 ^ 31 then some (BitVec.ofNat 32 v) else none

/-- The operations a mnemonic with its operands stands for: one operation (R94), or the expansion of a
pseudo-operation (R95). -/
def readOperation (name : String) (ops : List (List Char)) : Option (List Instr) :=
  match ops with
  | [] =>
    if name = "INIT" then some [.init]
    else if name = "SLOWTICK" then some [.slowtick]
    else if name = "HCHG" then some [.hchg]
    else if name = "CLEAR" then some Pseudo.clear.expand
    else none
  | [a] =>
    if name = "RESET" then (readNat a).map fun v => [.reset v]
    else if name = "RXB" then (readBits 8 a).map fun v => [.rxb v]
    else if name = "FEED" then (readBits 8 a).map fun v => [.feed v]
    else if name = "SETT" then (readHeight a).map fun v => [.sett v]
    else if name = "SEL" then (readBits 8 a).map fun v => [.sel v]
    else if name = "FRAME" then (readBits 8 a).map fun v => (Pseudo.frame v).expand
    else if name = "FFRAME" then (readBits 8 a).map fun v => (Pseudo.fframe v).expand
    else if name = "TICKI" then (readNat a).map fun v => (Pseudo.ticki v).expand
    else if name = "BOOT" then (readNat a).map fun v => (Pseudo.boot v).expand
    else none
  | [a, b] =>
    if name = "ADDP" then
      match readBits 8 a, readHeight b with
      | some l, some h => some [.addp l h]
      | _, _ => none
    else none
  | [a, b, c] =>
    if name = "TICK" then
      match readNat a, readBit b, readBit c with
      | some now, some u, some d => some [.tick now u d]
      | _, _, _ => none
    else if name = "UPD" then
      match readNat a, readBit b, readDet c with
      | some now, some l, some d => some [.upd now l d]
      | _, _, _ => none
    else none
  | _ => none

/-- The operations of one line; a line of a comment alone stands for none (R94). -/
def readLine (line : List Char) : Option (List Instr) :=
  let body := trim (line.takeWhile (· ≠ ';'))
  if body = [] then some []
  else
    let name := body.takeWhile fun c => !isBlank c
    let operands := trim (body.drop name.length)
    readOperation (String.ofList name) (if operands = [] then [] else (pieces ',' operands).map trim)

/-- The operations of lines in order; `none` if a line is not one of R94. -/
def readLines : List (List Char) → Option (List Instr)
  | [] => some []
  | l :: rest =>
    match readLine l, readLines rest with
    | some is, some js => some (is ++ js)
    | _, _ => none

/-- The trace a text writes, one operation a line (R94). -/
def readTrace (text : List Char) : Option (List Instr) := readLines (pieces '\n' text)

end Sys2Proof
end

