-- ==== Sys2Proof/Safety.lean ====
section
/-! DEFINITION. The terms the claims use: runs, the invariants of a state, and what the rules say of byte streams
and of the event log, written apart from the machine. -/

namespace Sys2Proof.Machine

/-! ## Runs -/

/-- The next state an operation answers, if it answers one. -/
def nextState (o : Result) : Option State :=
  match o with
  | .next s => some s
  | .fault _ => none
  | .refused _ => none

/-- The effect of a trace is the composition of the effects of its operations in trace order (20_memory.md R70). -/
def execAll : List Instr → State → Result
  | [], s => .next s
  | i :: rest, s => andThen (exec i s) (execAll rest)

/-- `k` steps of the machine, ending at the first stop. -/
def steps : Nat → State → Result
  | 0, s => .next s
  | k + 1, s => andThen (step s) (steps k)

/-- The operations other than `RESET`, which starts a new trace (43_height_controller.md R165). -/
def notReset (i : Instr) : Prop := ∀ now, i ≠ .reset now

/-- The clock premise on one operand (60_exceptions.md R236): no wrap, and not before the trace's latest time. -/
def clockOk (now : Nat) (s : State) : Prop := now + 1000 < 2 ^ s.cfg.timeBits ∧ s.lastNow ≤ now

/-! ## Byte streams (41_decoder.md R115) -/

/-- The height bytes of the decode cycles of a byte stream that starts in `UNSYNCED`: a byte that is not the marker
throws away what was matched (R112); after three markers the next byte is the height byte (R113). -/
def decodeCycles : List Byte → List Byte
  | a :: b :: c :: d :: rest =>
    if a ≠ 0x01#8 then decodeCycles (b :: c :: d :: rest)
    else if b ≠ 0x01#8 then decodeCycles (c :: d :: rest)
    else if c ≠ 0x01#8 then decodeCycles (d :: rest)
    else d :: decodeCycles rest
  | _ => []

/-- The heights that validate: the byte of a cycle that equals the byte of the cycle before it (R115). -/
def agreeingCycles : List Byte → List Byte
  | a :: b :: rest => if a = b then b :: agreeingCycles (b :: rest) else agreeingCycles (b :: rest)
  | _ => []

/-- `Feed` over a list of bytes: the decoder afterwards and the heights surfaced, in order. -/
def feedAll : List Byte → Dec → Dec × List Byte
  | [], d => (d, [])
  | b :: rest, d =>
    let r := feedAll rest (feed b d).1
    (r.1, (feed b d).2.toList ++ r.2)

/-- The current height after the heights `hs` have validated: the last one, if any (43_height_controller.md R170). -/
def latestHeight (old : Option Byte) (hs : List Byte) : Option Byte :=
  match hs.getLast? with
  | some v => some v
  | none => old

/-! ## The event log -/

/-- The directions a log's `EV_DRV` events carry, in order. -/
def drives (out : List Event) : List Dir :=
  out.filterMap fun e => match e with | .drv d => some d | _ => none

/-- The direction the last `EV_DRV` of a log carries; `STOP` when it carries none (10_state.md R37). -/
def lastDriven (out : List Event) : Dir := (drives out).getLast?.getD .stop

/-- The raw heights a log publishes, in order. -/
def rawReports (out : List Event) : List Byte :=
  out.filterMap fun e => match e with | .pubRaw r => some r | _ => none

/-- The labels a log publishes, in order. -/
def shownLabels (out : List Event) : List Label :=
  out.filterMap fun e => match e with | .pubOpt l => some l | _ => none

/-- The press events of one detector in a log, in order. -/
def pressEvents (det : Button) (out : List Event) : List Bool :=
  out.filterMap fun e => match e with | .press d p => if d = det then some p else none | _ => none

/-- No two neighbours of a list are equal. -/
def neighboursDiffer : List Byte → Prop
  | a :: b :: rest => a ≠ b ∧ neighboursDiffer (b :: rest)
  | _ => True

/-- What button `b`'s press event makes the controller emit (43_height_controller.md R174, R175): the drive, then the
notification if a selector is attached. -/
def reactionEvents (attached : Bool) (b : Button) : Option Bool → List Event
  | none => []
  | some p =>
    .drv (if p = true then (match b with | .up => .up | .down => .down) else .stop) ::
      (if attached = true then [.pubOpt 0x00#8] else [])

/-- The turn of button `b` in an idle `TICK` at `now` (43_height_controller.md R174, R175; 44_preset_selector.md R205),
said with the operation `SEL`: the detector steps; a press event drives and, with a selector attached, shows "None"; a
double-click then selects the configured label. -/
def idleTurn (b : Button) (level : Bool) (now : Nat) (s : State) : Result :=
  let x := upd level now (State.btn s b)
  let v : State :=
    { State.setBtn s b x.btn with
      hc := { s.hc with
        dir := match x.press with
          | none => s.hc.dir
          | some p => if p = true then (match b with | .up => .up | .down => .down) else .stop }
      sel := { s.sel with idx := if x.press ≠ none ∧ s.cfg.selAttached = true then 0 else s.sel.idx }
      out := s.out ++ reactionEvents s.cfg.selAttached b x.press }
  if x.dclick = true ∧ s.cfg.selAttached = true then
    exec (.sel (match b with | .up => s.cfg.dcLabelUp | .down => s.cfg.dcLabelDown)) v
  else .next v

/-- The events an operation may emit: the column "emitted by" of 30_encoding.md R91. -/
def mayEmit (i : Instr) : Event → Prop
  | .height _ => ∃ b, i = .feed b
  | .press det _ => ∃ now level, i = .upd now level det
  | .dclick det => ∃ now level, i = .upd now level det
  | .drv _ => i = .init ∨ ∃ now upN downN, i = .tick now upN downN
  | .delay _ => i = .init
  | .pubRaw _ => i = .slowtick
  | .pubInch _ => i = .slowtick
  | .pubOpt _ => (∃ now upN downN, i = .tick now upN downN) ∨ (∃ label, i = .sel label) ∨ i = .hchg

/-! ## Invariants of a state -/

/-- The order of a detector's edge times (10_state.md R33); its stamps and its lockout deadline against the trace's
latest time `last` (R31); and that no double-click is still to fire, (a) and (c) of R136 not both holding between
operations (42_edge_detector.md R139). -/
def Btn.ordered (last : Nat) (b : Btn) : Prop :=
  b.prevRise ≤ b.rise ∧ b.prevFall ≤ b.fall ∧
  (b.level = true → b.prevRise ≤ b.fall ∧ b.fall ≤ b.rise) ∧
  (b.level = false → b.rise ≤ b.fall) ∧
  b.rise ≤ last ∧ b.fall ≤ last ∧ b.lockout ≤ last + 1000 ∧
  (b.rise < b.prevRise + 1000 → b.prevRise ≤ b.lockout)

/-- R33 for both detectors, and R32's premise on the latest time. -/
def EdgesOrdered (s : State) : Prop :=
  Btn.ordered s.lastNow s.btnUp ∧ Btn.ordered s.lastNow s.btnDown ∧ s.lastNow + 1000 < 2 ^ s.cfg.timeBits

/-- The preset list starts with the sentinel, every later pair holds a height, and the selected index is in the
list (10_state.md R42, R43). -/
def PresetsFormed (s : State) : Prop :=
  (∃ rest, s.sel.presets = { label := 0x00#8, h := none } :: rest ∧ ∀ p ∈ rest, p.h ≠ none) ∧
  s.sel.idx < s.sel.presets.length

/-- The outputs are at the direction the last `EV_DRV` of the log carries (10_state.md R37, R164). -/
def DirectionLogged (s : State) : Prop := s.hc.dir = lastDriven s.out

/-- `hc.rep` is the last raw height published, and no height was published twice in a row (10_state.md R36,
43_height_controller.md R176). -/
def ReportsDeduplicated (s : State) : Prop :=
  s.hc.rep = (rawReports s.out).getLast? ∧ neighboursDiffer (rawReports s.out)

/-- The label of the selected pair is the last label published, "None" if none was (44_preset_selector.md R203,
R204). -/
def SelectionShown (s : State) : Prop :=
  (s.sel.presets[s.sel.idx]?).map Preset.label = some ((shownLabels s.out).getLast?.getD 0x00#8)

/-! ## Who writes what -/

/-- The table of 10_state.md R21: for each operation but `RESET`, the groups it leaves as they were, and for a
group it writes in part, the fields it leaves. -/
def keepsUntouched (i : Instr) (s t : State) : Prop :=
  t.cfg = s.cfg ∧ t.cmds = s.cmds ∧
  match i with
  | .reset _ => True
  | .init =>
    t.dec = s.dec ∧ t.btnUp = s.btnUp ∧ t.btnDown = s.btnDown ∧ t.rxq = s.rxq ∧ t.sel = s.sel ∧
    t.hc.cur = s.hc.cur ∧ t.hc.tgt = s.hc.tgt ∧ t.hc.rep = s.hc.rep ∧ t.lastNow = s.lastNow
  | .rxb _ =>
    t.dec = s.dec ∧ t.btnUp = s.btnUp ∧ t.btnDown = s.btnDown ∧ t.hc = s.hc ∧ t.sel = s.sel ∧ t.out = s.out ∧
    t.boot = s.boot ∧ t.lastNow = s.lastNow
  | .tick _ _ _ =>
    t.hc.rep = s.hc.rep ∧ t.sel.presets = s.sel.presets ∧ t.boot = s.boot ∧
    (s.hc.tgt ≠ none → t.btnUp = s.btnUp ∧ t.btnDown = s.btnDown ∧ t.sel = s.sel)
  | .slowtick =>
    t.dec = s.dec ∧ t.btnUp = s.btnUp ∧ t.btnDown = s.btnDown ∧ t.rxq = s.rxq ∧ t.sel = s.sel ∧
    t.hc.cur = s.hc.cur ∧ t.hc.tgt = s.hc.tgt ∧ t.hc.dir = s.hc.dir ∧ t.boot = s.boot ∧ t.lastNow = s.lastNow
  | .sett _ =>
    t.dec = s.dec ∧ t.btnUp = s.btnUp ∧ t.btnDown = s.btnDown ∧ t.rxq = s.rxq ∧ t.sel = s.sel ∧ t.out = s.out ∧
    t.hc.cur = s.hc.cur ∧ t.hc.rep = s.hc.rep ∧ t.hc.dir = s.hc.dir ∧ t.boot = s.boot ∧ t.lastNow = s.lastNow
  | .feed _ =>
    t.btnUp = s.btnUp ∧ t.btnDown = s.btnDown ∧ t.hc = s.hc ∧ t.rxq = s.rxq ∧ t.sel = s.sel ∧ t.boot = s.boot ∧
    t.lastNow = s.lastNow
  | .upd _ _ det =>
    t.dec = s.dec ∧ (det = .up → t.btnDown = s.btnDown) ∧ (det = .down → t.btnUp = s.btnUp) ∧ t.hc = s.hc ∧
    t.rxq = s.rxq ∧ t.sel = s.sel ∧ t.boot = s.boot
  | .sel _ =>
    t.dec = s.dec ∧ t.btnUp = s.btnUp ∧ t.btnDown = s.btnDown ∧ t.rxq = s.rxq ∧ t.sel.presets = s.sel.presets ∧
    t.hc.cur = s.hc.cur ∧ t.hc.rep = s.hc.rep ∧ t.hc.dir = s.hc.dir ∧ t.boot = s.boot ∧ t.lastNow = s.lastNow
  | .hchg =>
    t.dec = s.dec ∧ t.btnUp = s.btnUp ∧ t.btnDown = s.btnDown ∧ t.hc = s.hc ∧ t.rxq = s.rxq ∧
    t.sel.presets = s.sel.presets ∧ t.boot = s.boot ∧ t.lastNow = s.lastNow
  | .addp _ _ =>
    t.dec = s.dec ∧ t.btnUp = s.btnUp ∧ t.btnDown = s.btnDown ∧ t.hc = s.hc ∧ t.rxq = s.rxq ∧ t.out = s.out ∧
    t.sel.idx = s.sel.idx ∧ t.boot = s.boot ∧ t.lastNow = s.lastNow

/-! ## Refusals (93_implementation_defined.md, section 3) -/

/-- X5 for a height that `SetTarget` is called with: it is positive, so it is converted, and the conversion is outside
the signed 32-bit range (43_height_controller.md R162, R168). -/
def heightOutOfRange (c : Params) (h : Height) : Prop :=
  0 < h.toInt ∧ (inchesToRaw c h.toInt < -2 ^ 31 ∨ 2 ^ 31 ≤ inchesToRaw c h.toInt)

/-- X5 for a label that `Select` is called with: it is found at an index other than 0, and the height stored there is
out of range (44_preset_selector.md R203). -/
def presetOutOfRange (label : Label) (s : State) : Prop :=
  ∃ i h l, lookup label s.sel.presets = some i ∧ i ≠ 0 ∧
    s.sel.presets[i]? = some { label := l, h := some h } ∧ heightOutOfRange s.cfg h

/-- X5 for a `TICK` at `now` with these pins: it takes the idle branch with a selector attached, and some button's
double-click selects a preset that is out of range (43_height_controller.md R174). -/
def tickOutOfRange (now : Nat) (upN downN : Bool) (s : State) : Prop :=
  s.hc.tgt = none ∧ s.cfg.selAttached = true ∧
    (((upd (!upN) now s.btnUp).dclick = true ∧ presetOutOfRange s.cfg.dcLabelUp s) ∨
     ((upd (!downN) now s.btnDown).dclick = true ∧ presetOutOfRange s.cfg.dcLabelDown s))

/-- `now` is the time of a `TICK` or `UPD` that is in boot order, on which the clock premise then stands (R131, R169,
R256). -/
def premisedTime (i : Instr) (now : Nat) (s : State) : Prop :=
  (s.boot = .running ∧ ∃ upN downN, i = .tick now upN downN) ∨
  (s.boot ≠ .unbuilt ∧ ∃ level det, i = .upd now level det)

/-- The situation in which an operation is refused, for each name: X1, X2, X4, X5. (X3, and a word for another
`TIME_BITS`, is `step`'s: `stepRefusal`.) -/
def refusalSituation (i : Instr) (s : State) : Refusal → Prop
  | .clockWrap => ∃ now, 2 ^ s.cfg.timeBits ≤ now + 1000 ∧ (i = .reset now ∨ premisedTime i now s)
  | .clockBackwards => ∃ now, now + 1000 < 2 ^ s.cfg.timeBits ∧ now < s.lastNow ∧ premisedTime i now s
  | .beforeReset => s.boot = .unbuilt ∧ notReset i
  | .tickBeforeInit => s.boot = .configuring ∧ ∃ now upN downN, i = .tick now upN downN
  | .initTwice => s.boot = .running ∧ i = .init
  | .addpAfterInit => s.boot = .running ∧ ∃ label h, i = .addp label h
  | .targetOutOfRange =>
    (s.boot ≠ .unbuilt ∧ ∃ h, i = .sett h ∧ heightOutOfRange s.cfg h) ∨
    (s.boot ≠ .unbuilt ∧ ∃ label, i = .sel label ∧ presetOutOfRange label s) ∨
    (s.boot = .running ∧ ∃ now upN downN, i = .tick now upN downN ∧ clockOk now s ∧ tickOutOfRange now upN downN s)
  | _ => False

/-- The operation a request asks for (30_encoding.md R84): a word asks for one where `TIME_BITS` is 32 and it decodes,
an operation asks for itself. -/
def asksFor (timeBits : Nat) (q : Request) (i : Instr) : Prop :=
  q = .op i ∨ ∃ w, q = .word w ∧ timeBits = 32 ∧ decode w = .ok i

/-- The situation in which a step is refused, for each name: the oldest waiting request is a word where `TIME_BITS` is
not 32 (30_encoding.md R84), is a word that encodes nothing (R88, X3), or asks for an operation that is refused. -/
def stepRefusal (s : State) (r : Refusal) : Prop :=
  ∃ q rest, s.cmds = q :: rest ∧
    ((∃ w, q = .word w ∧ s.cfg.timeBits ≠ 32 ∧ r = .noEncoding) ∨
     (∃ w, q = .word w ∧ s.cfg.timeBits = 32 ∧ (w.extractLsb' 44 4 = 0x0#4 ∨ 0xC#4 ≤ w.extractLsb' 44 4) ∧
       r = .reservedOpcode) ∨
     (∃ w, q = .word w ∧ s.cfg.timeBits = 32 ∧
       (∃ row : Instr, w.extractLsb' 44 4 = row.matchBits.extractLsb' 44 4 ∧ w &&& row.maskBits ≠ row.matchBits) ∧
       r = .mustBeZero) ∨
     (∃ i, asksFor s.cfg.timeBits q i ∧ refusalSituation i { s with cmds := rest } r))

end Sys2Proof.Machine
end

