-- ==== Sys2Proof/Certificates/Slice0/Obligations.lean ====
section
/-! DEFINITION. The statements for the provers, from the numbered rules of spec/. -/

open Sys2Proof Sys2Proof.Machine

/-! ## Command words (30_encoding.md R84 to R88) -/

/-- R84, R85: each operation whose time fits the word's field has one word, and each word that decodes is the word of
its operation, which then is such an operation; with every operand at every value. The word format is the spec's own
decision (D2). -/
def Obligations.DecodeIffEncode : Prop :=
  ∀ (i : Instr) (w : Command), decode w = .ok i ↔ i.encodable = true ∧ encode i = w

/-- R86: the match and mask values of the eleven rows: a word encodes the row's operation exactly when it has the
row's bits. -/
def Obligations.DecodeAgreesWithOpcodeMap : Prop :=
  ∀ w : Command,
    ((∃ now, decode w = .ok (.reset now)) ↔ w &&& 0xFFFF00000000#48 = 0x100000000000#48) ∧
    (decode w = .ok .init ↔ w &&& 0xFFFFFFFFFFFF#48 = 0x200000000000#48) ∧
    ((∃ b, decode w = .ok (.rxb b)) ↔ w &&& 0xFFFFFFFFFF00#48 = 0x300000000000#48) ∧
    ((∃ now u d, decode w = .ok (.tick now u d)) ↔ w &&& 0xFFFC00000000#48 = 0x400000000000#48) ∧
    (decode w = .ok .slowtick ↔ w &&& 0xFFFFFFFFFFFF#48 = 0x500000000000#48) ∧
    ((∃ h, decode w = .ok (.sett h)) ↔ w &&& 0xFFFF00000000#48 = 0x600000000000#48) ∧
    ((∃ b, decode w = .ok (.feed b)) ↔ w &&& 0xFFFFFFFFFF00#48 = 0x700000000000#48) ∧
    ((∃ now l d, decode w = .ok (.upd now l d)) ↔ w &&& 0xFFFC00000000#48 = 0x800000000000#48) ∧
    ((∃ l, decode w = .ok (.sel l)) ↔ w &&& 0xFFFFFFFFFF00#48 = 0x900000000000#48) ∧
    (decode w = .ok .hchg ↔ w &&& 0xFFFFFFFFFFFF#48 = 0xA00000000000#48) ∧
    ((∃ l h, decode w = .ok (.addp l h)) ↔ w &&& 0xFF0000000000#48 = 0xB00000000000#48)

/-- R85: every operand of a word that decodes, bit by bit and as the integer the rules read. -/
def Obligations.OperandsAssembledFromFields : Prop :=
  ∀ w : Command,
    (∀ now, decode w = .ok (.reset now) → ms now = ((w.extractLsb' 0 32).toNat : Int)) ∧
    (∀ b, decode w = .ok (.rxb b) → b = w.extractLsb' 0 8) ∧
    (∀ now upN downN, decode w = .ok (.tick now upN downN) →
      ms now = ((w.extractLsb' 0 32).toNat : Int) ∧ upN = w.getLsbD 32 ∧ downN = w.getLsbD 33 ∧
      pressedLevel upN = !w.getLsbD 32 ∧ pressedLevel downN = !w.getLsbD 33) ∧
    (∀ h, decode w = .ok (.sett h) → Height.units h = (w.extractLsb' 0 32).toInt) ∧
    (∀ b, decode w = .ok (.feed b) → b = w.extractLsb' 0 8) ∧
    (∀ now level det, decode w = .ok (.upd now level det) →
      ms now = ((w.extractLsb' 0 32).toNat : Int) ∧ level = w.getLsbD 32 ∧
      det = if w.getLsbD 33 = true then .down else .up) ∧
    (∀ label, decode w = .ok (.sel label) → label = w.extractLsb' 0 8) ∧
    (∀ label h, decode w = .ok (.addp label h) →
      label = w.extractLsb' 32 8 ∧ Height.units h = (w.extractLsb' 0 32).toInt)

/-- R88: a word with a reserved opcode, or with a defined opcode and a 1 in a must-be-zero bit of its row, encodes no
operation. -/
def Obligations.InvalidWordEncodesNothing : Prop :=
  ∀ (w : Command) (i : Instr),
    (w.extractLsb' 44 4 = 0x0#4 ∨ 0xC#4 ≤ w.extractLsb' 44 4) ∨
      (∃ row : Instr, w.extractLsb' 44 4 = row.matchBits.extractLsb' 44 4 ∧ w &&& row.maskBits ≠ row.matchBits) →
    decode w ≠ .ok i

/-- The model's form of R88's "a model refuses the trace" (log 1, log 10): `step` refuses a waiting word that encodes
nothing, each of the two reasons by its own name; and, where `TIME_BITS` is not 32, every word, since R84 then drops the
encoding (log 7). -/
def Obligations.InvalidWordRefused : Prop :=
  ∀ (s : State) (w : Command) (rest : List Request), s.cmds = .word w :: rest →
    (s.cfg.timeBits ≠ 32 → step s = .refused .noEncoding) ∧
    (s.cfg.timeBits = 32 → w.extractLsb' 44 4 = 0x0#4 ∨ 0xC#4 ≤ w.extractLsb' 44 4 →
      step s = .refused .reservedOpcode) ∧
    (s.cfg.timeBits = 32 → ∀ i : Instr, w.extractLsb' 44 4 = i.matchBits.extractLsb' 44 4 →
      w &&& i.maskBits ≠ i.matchBits → step s = .refused .mustBeZero)

/-- Words written out from R84 and R86 (95_test_vectors.md V-E1) decode to the operations they stand for. -/
def Obligations.WrittenWordsDecode : Prop :=
  decode 0x100000000064#48 = .ok (.reset 100) ∧
  decode 0x30000000005A#48 = .ok (.rxb 0x5A#8) ∧
  decode 0x4002000007D0#48 = .ok (.tick 2000 false true) ∧
  decode 0x6000FFFFFC18#48 = .ok (.sett (BitVec.ofInt 32 (-1000))) ∧
  decode 0x8003000008FC#48 = .ok (.upd 2300 true .down) ∧
  decode 0xB00200001F40#48 = .ok (.addp 2#8 8000#32)

/-- The model's own form of R14 (log 1): when the oldest waiting request is a word that decodes to `i`, `TIME_BITS`
being 32, or is `i` itself, whatever `TIME_BITS` is, the step is `i` executed on the state without that request. -/
def Obligations.StepRunsDecodedCommand : Prop :=
  (∀ (s : State) (w : Command) (rest : List Request) (i : Instr),
    s.cmds = .word w :: rest → s.cfg.timeBits = 32 → decode w = .ok i → step s = exec i { s with cmds := rest }) ∧
  (∀ (s : State) (rest : List Request) (i : Instr),
    s.cmds = .op i :: rest → step s = exec i { s with cmds := rest })

/-- The model's choice (log 2), after R269: with no request waiting nothing happens. -/
def Obligations.StepWaitsWithoutCommand : Prop :=
  ∀ s : State, s.cmds = [] → step s = .next s

/-- R70 in the model's form (log 1): the operations of a trace, asked for and run one step each, have the composed
effect in trace order; and so have their words, where `TIME_BITS` is 32 and every time fits its word. -/
def Obligations.EncodedTraceRunsInOrder : Prop :=
  ∀ (trace : List Instr) (s : State), s.cmds = [] →
    steps trace.length { s with cmds := trace.map .op } = execAll trace s ∧
    (s.cfg.timeBits = 32 → (∀ i ∈ trace, i.encodable = true) →
      steps trace.length { s with cmds := trace.map fun i => .word (encode i) } = execAll trace s)

/-! ## Decoder (41_decoder.md) -/

/-- R112: `FEED` in the three marker stages. -/
def Obligations.FeedMarkerStages : Prop :=
  ∀ (s : State) (b : Byte), s.boot ≠ .unbuilt →
    (b ≠ 0x01#8 → s.dec.sync ≠ .expectHeight →
      exec (.feed b) s = .next { s with dec := { s.dec with sync := .unsynced } }) ∧
    (s.dec.sync = .unsynced →
      exec (.feed 0x01#8) s = .next { s with dec := { s.dec with sync := .sawFirstMarker } }) ∧
    (s.dec.sync = .sawFirstMarker →
      exec (.feed 0x01#8) s = .next { s with dec := { s.dec with sync := .sawSecondMarker } }) ∧
    (s.dec.sync = .sawSecondMarker →
      exec (.feed 0x01#8) s = .next { s with dec := { s.dec with sync := .expectHeight } })

/-- R113: `FEED` in the height stage takes any byte; it surfaces a byte equal to that of the previous cycle. -/
def Obligations.FeedHeightStage : Prop :=
  ∀ (s : State) (b : Byte), s.boot ≠ .unbuilt → s.dec.sync = .expectHeight →
    exec (.feed b) s = .next
      { s with
        dec := { sync := .unsynced, last := s.dec.cur, cur := some b },
        out := s.out ++ (if s.dec.cur = some b then [.height b] else []) }

/-- R115, which the spec marks as derived: from reset, the heights surfaced are exactly those of a cycle whose byte
equals that of the cycle before it. It holds of every byte sequence, so of each prefix, which fixes the step at which
each height is surfaced. -/
def Obligations.HeightsSurfacedIffCyclesAgree : Prop :=
  ∀ (bytes : List Byte) (s : State), s.boot ≠ .unbuilt → s.dec = { sync := .unsynced, last := none, cur := none } →
    ∃ t, execAll (bytes.map .feed) s = .next t ∧
      t.out = s.out ++ (agreeingCycles (decodeCycles bytes)).map .height

/-- R117, which the spec marks as derived: the frames `A A X A A`, with `X` not `A`, surface at frames 2 and 5 only. -/
def Obligations.CorruptedHeightByteCostsOneMoreFrame : Prop :=
  ∀ (a x : Byte) (s : State), s.boot ≠ .unbuilt → s.dec = { sync := .unsynced, last := none, cur := none } → x ≠ a →
    ∃ t u, execAll ([0x01#8, 0x01#8, 0x01#8, a, 0x01#8, 0x01#8, 0x01#8, a].map .feed) s = .next t ∧
      t.out = s.out ++ [.height a] ∧
      execAll ([0x01#8, 0x01#8, 0x01#8, x, 0x01#8, 0x01#8, 0x01#8, a].map .feed) t = .next u ∧ u.out = t.out ∧
      ∃ v, execAll ([0x01#8, 0x01#8, 0x01#8, a].map .feed) u = .next v ∧ v.out = u.out ++ [.height a]

/-! ## Detector (42_edge_detector.md) -/

/-- R132, R133, R136, R142: the whole effect of `UPD`. `e` is the detector after edge capture, `p` the
press state, `c` the double-click test. -/
def Obligations.UpdEffect : Prop :=
  ∀ (s : State) (now : Nat) (level : Bool) (det : Button), s.boot ≠ .unbuilt → clockOk now s →
    let b := State.btn s det
    let e : Btn :=
      if level = b.level then b
      else if level = true then { b with prevRise := b.rise, rise := now, level := true }
      else { b with prevFall := b.fall, fall := now, level := false }
    let p : Bool := decide (e.fall < e.rise ∧ (now : Int) - e.rise > 1000)
    let c : Bool := decide ((e.rise : Int) - e.prevRise < 1000 ∧
      (now : Int) - e.fall < 1000 ∧ e.prevRise > e.lockout)
    ∃ t, exec (.upd now level det) s = .next t ∧
      State.btn t det = { e with disp := p, lockout := if c = true then now + 1000 else e.lockout } ∧
      t.out = s.out ++ (if p = e.disp then [] else [.press det p]) ++ (if c = true then [.dclick det] else []) ∧
      t.lastNow = now ∧ keepsUntouched (.upd now level det) s t

/-- R139, which the spec marks as derived: under the order of R33, a double-click fires at the `UPD` that records a
rising edge if (a) and (c) hold there, and at no other `UPD`. -/
def Obligations.DoubleClickFiresOnlyAtRisingEdge : Prop :=
  ∀ (s t : State) (now : Nat) (level : Bool) (det : Button), EdgesOrdered s →
    exec (.upd now level det) s = .next t →
    (Event.dclick det ∈ t.out.drop s.out.length ↔
      level = true ∧ (State.btn s det).level = false ∧ now < (State.btn s det).rise + 1000 ∧
      (State.btn s det).rise > (State.btn s det).lockout)

/-- R135, which the spec marks as derived: a press held over the samples `ts` dispatches PressStart once if some
sample is later than 1000 ms after the edge and not at all otherwise; its release then dispatches PressEnd once, or
nothing. -/
def Obligations.HoldDispatchesPressOnce : Prop :=
  ∀ (s t u : State) (t0 tEnd : Nat) (ts : List Nat) (det : Button),
    (State.btn s det).level = false → (State.btn s det).disp = false →
    (State.btn s det).fall < t0 →
    execAll (.upd t0 true det :: ts.map (fun x => .upd x true det)) s = .next t →
    exec (.upd tEnd false det) t = .next u →
    let long : Bool := decide (∃ x ∈ ts, x > t0 + 1000)
    pressEvents det t.out = pressEvents det s.out ++ (if long = true then [true] else []) ∧
    pressEvents det u.out = pressEvents det t.out ++ (if long = true then [false] else [])

/-- R134: an untouched button, its detector as reset leaves it, produces no event, and nothing of it changes. -/
def Obligations.UntouchedButtonIsSilent : Prop :=
  ∀ (s t : State) (ts : List Nat) (det : Button) (lockout : Nat),
    State.btn s det = Btn.reset lockout →
    execAll (ts.map fun x => .upd x false det) s = .next t →
    t.out = s.out ∧ State.btn t det = Btn.reset lockout

/-- R141 (1) and (3), which the spec marks as derived: a hold whose rising edge carries the time stamp of the last
falling edge is never reported. Each `UPD` of the hold completes, dispatches nothing and keeps the level, `disp` and the
two stamps; so does any number of them, and the release dispatches nothing either. -/
def Obligations.EqualStampsHideHold : Prop :=
  ∀ (s : State) (det : Button), s.boot ≠ .unbuilt →
    (State.btn s det).level = true → (State.btn s det).disp = false →
    (State.btn s det).fall = (State.btn s det).rise →
    (∀ now, clockOk now s →
      ∃ t, exec (.upd now true det) s = .next t ∧ pressEvents det t.out = pressEvents det s.out ∧
        (State.btn t det).disp = false ∧ (State.btn t det).level = true ∧
        (State.btn t det).rise = (State.btn s det).rise ∧ (State.btn t det).fall = (State.btn s det).fall) ∧
    (∀ (ts : List Nat) (t : State), execAll (ts.map fun x => .upd x true det) s = .next t →
      pressEvents det t.out = pressEvents det s.out ∧
      (State.btn t det).disp = false ∧ (State.btn t det).level = true ∧
      (State.btn t det).rise = (State.btn s det).rise ∧ (State.btn t det).fall = (State.btn s det).fall ∧
      ∀ (tEnd : Nat) (u : State), (State.btn s det).rise ≤ tEnd → exec (.upd tEnd false det) t = .next u →
        pressEvents det u.out = pressEvents det s.out ∧ (State.btn u det).disp = false)

/-- R33 and R31's ordering, which the spec marks as derived: every step keeps the order of the edge times. -/
def Obligations.EdgeOrderKept : Prop :=
  ∀ s t : State, EdgesOrdered s → step s = .next t → EdgesOrdered t

/-- The order of R33 holds at reset. -/
def Obligations.EdgeOrderAtReset : Prop := EdgesOrdered State.reset

/-- R31's last sentence, which the spec marks as derived: no operation but `RESET` lowers a lockout deadline. -/
def Obligations.LockoutNeverDecreases : Prop :=
  ∀ (i : Instr) (s t : State), EdgesOrdered s → notReset i → exec i s = .next t →
    s.btnUp.lockout ≤ t.btnUp.lockout ∧ s.btnDown.lockout ≤ t.btnDown.lockout

/-! ## Reset, boot order, clock (10_state.md R46, 70_reset_and_hazards.md R256) -/

/-- R165, R46: `RESET now` leaves exactly this state, from any state, and outside its premise it is refused. The last
four fields are the model's (the parameters log 14, the boot order log 9, the latest time log 8, the waiting words
log 1), and so is the refusal's name (log 8). -/
def Obligations.ResetEffect : Prop :=
  ∀ (s : State) (now : Nat),
    (now + 1000 < 2 ^ s.cfg.timeBits →
      exec (.reset now) s = .next
        { dec := { sync := .unsynced, last := none, cur := none },
          btnUp := { rise := 0, prevRise := 0, fall := 0, prevFall := 0, level := false, disp := false,
                     lockout := now + 1000 },
          btnDown := { rise := 0, prevRise := 0, fall := 0, prevFall := 0, level := false, disp := false,
                       lockout := now + 1000 },
          hc := { cur := none, tgt := none, rep := none, dir := .stop },
          rxq := [],
          sel := { presets := [{ label := 0x00#8, h := none }], idx := 0 },
          out := [],
          cfg := s.cfg,
          boot := .configuring,
          lastNow := now,
          cmds := s.cmds }) ∧
    (2 ^ s.cfg.timeBits ≤ now + 1000 → exec (.reset now) s = .refused .clockWrap)

/-- R166: `INIT` appends Stop, Up, the delay, Stop and leaves the outputs at Stop, whatever the height and the target.
`boot` is the model's (log 9). -/
def Obligations.InitEffect : Prop :=
  ∀ s : State, s.boot = .configuring →
    exec .init s = .next
      { s with
        hc := { s.hc with dir := .stop },
        out := s.out ++ [.drv .stop, .drv .up, .delay s.cfg.startupPulseMs, .drv .stop],
        boot := .running }

/-- R256 and the clock premise of R236, on one operation: what is out of boot order or out of the premise is
refused. The names of the refusals are the model's (log 8, log 9). -/
def Obligations.OutOfOrderRefused : Prop :=
  (∀ (i : Instr) (s : State), s.boot = .unbuilt → notReset i → exec i s = .refused .beforeReset) ∧
  (∀ (s : State) (now : Nat) (u d : Bool), s.boot = .configuring →
    exec (.tick now u d) s = .refused .tickBeforeInit) ∧
  (∀ s : State, s.boot = .running → exec .init s = .refused .initTwice) ∧
  (∀ (s : State) (l : Label) (h : Height), s.boot = .running → exec (.addp l h) s = .refused .addpAfterInit) ∧
  (∀ (s : State) (now : Nat), 2 ^ s.cfg.timeBits ≤ now + 1000 → exec (.reset now) s = .refused .clockWrap) ∧
  (∀ (s : State) (now : Nat) (u d : Bool), s.boot = .running → 2 ^ s.cfg.timeBits ≤ now + 1000 →
    exec (.tick now u d) s = .refused .clockWrap) ∧
  (∀ (s : State) (now : Nat) (l : Bool) (d : Button), s.boot ≠ .unbuilt → 2 ^ s.cfg.timeBits ≤ now + 1000 →
    exec (.upd now l d) s = .refused .clockWrap) ∧
  (∀ (s : State) (now : Nat) (u d : Bool), s.boot = .running → now + 1000 < 2 ^ s.cfg.timeBits →
    now < s.lastNow → exec (.tick now u d) s = .refused .clockBackwards) ∧
  (∀ (s : State) (now : Nat) (l : Bool) (d : Button), s.boot ≠ .unbuilt → now + 1000 < 2 ^ s.cfg.timeBits →
    now < s.lastNow → exec (.upd now l d) s = .refused .clockBackwards)

/-- R220 with X1 to X5: an operation is refused in the listed situations only, each by its own name; the situation of
X5 is the operand, the preset or the double-click whose converted height is outside 32 bits. The spec's list gives the
situations; their names, and the order in which boot order, wrap and monotonicity are looked at, are the model's (log 8,
log 9, log 11). -/
def Obligations.RefusedOnlyWhereListed : Prop :=
  ∀ (i : Instr) (s : State) (r : Refusal), exec i s = .refused r → refusalSituation i s r

/-- X1, X2, X4, X5: an operation is refused wherever one of the listed situations holds, by its name. The names, and
the order in which boot order, wrap and monotonicity are looked at, are the model's (log 8, log 9, log 11). -/
def Obligations.RefusedWhereverListed : Prop :=
  ∀ (i : Instr) (s : State) (r : Refusal), refusalSituation i s r → exec i s = .refused r

/-- R220 with X1 to X5, for a step: in no listed situation it answers a next state, and otherwise it is refused by the
name of the one situation it is in (the names and the requests are the model's, log 1, log 8 to log 11). -/
def Obligations.StepAnswersNextOrListedRefusal : Prop :=
  ∀ s : State,
    ((∃ t, step s = .next t) ∧ ∀ r, ¬stepRefusal s r) ∨
    (∃ r, step s = .refused r ∧ ∀ r', stepRefusal s r' ↔ r' = r)

/-- R256: from the state before the first `RESET`, a trace that runs to its end is well-formed, and a well-formed
trace runs to its end unless a converted target leaves the 32-bit range (R162); for every `TIME_BITS`. -/
def Obligations.WellFormedTracesAreTheOnesThatRun : Prop :=
  ∀ (trace : List Instr) (s : State), s.boot = .unbuilt → s.cmds = [] →
    ((∃ t, steps trace.length { s with cmds := trace.map .op } = .next t) →
      traceWellFormed s.cfg.timeBits trace = true) ∧
    (traceWellFormed s.cfg.timeBits trace = true →
      (∃ t, steps trace.length { s with cmds := trace.map .op } = .next t) ∨
      steps trace.length { s with cmds := trace.map .op } = .refused .targetOutOfRange)

/-! ## Controller (43_height_controller.md) -/

/-- R167: `RXB` appends its byte to the queue and does nothing else. -/
def Obligations.RxbEffect : Prop :=
  ∀ (s : State) (b : Byte), s.boot ≠ .unbuilt → exec (.rxb b) s = .next { s with rxq := s.rxq ++ [b] }

/-- R161: the exact conversion of a raw height. -/
def Obligations.RawToHeightFormula : Prop :=
  ∀ (c : Params) (r : Int),
    rawToH c r = (r - c.minRaw.toInt) * ((c.inchScale : Int) / 10) + c.minH.toInt

/-- R162: the converted target, whatever the rounding, is the quotient where that is an integer, and differs from it
by less than 1 otherwise, both sides multiplied by `INCH_SCALE`; a `SETT` whose converted target is outside the signed
32-bit range is refused (the refusal's name is the model's, log 11). -/
def Obligations.TargetConversionRounds : Prop :=
  (∀ (c : Params) (h : Int), Params.valid c →
    let num := (h - c.minH.toInt) * 10
    let q := inchesToRaw c h - c.minRaw.toInt
    (∀ k : Int, num = k * c.inchScale → q = k) ∧
    q * c.inchScale - num < c.inchScale ∧ num - q * c.inchScale < c.inchScale) ∧
  (∀ (s : State) (h : Height), s.boot ≠ .unbuilt → 0 < h.toInt →
    (inchesToRaw s.cfg h.toInt < -2 ^ 31 ∨ 2 ^ 31 ≤ inchesToRaw s.cfg h.toInt) →
    exec (.sett h) s = .refused .targetOutOfRange)

/-- R163, which the spec marks as derived: the round trips of the two conversions. -/
def Obligations.ConversionRoundTrip : Prop :=
  ∀ c : Params, Params.valid c →
    (∀ r : Int, inchesToRaw c (rawToH c r) = r) ∧
    (∀ h : Int, (h - c.minH.toInt) % ((c.inchScale : Int) / 10) = 0 → rawToH c (inchesToRaw c h) = h) ∧
    (∀ h : Int, |rawToH c (inchesToRaw c h) - h| < (c.inchScale : Int) / 10)

/-- R168: a positive height sets the converted target, zero or a negative one clears it, and `SETT` does nothing else:
the outputs stay, the detectors are not stepped, nothing is emitted. -/
def Obligations.SettEffect : Prop :=
  ∀ (s : State) (h : Height), s.boot ≠ .unbuilt →
    (0 < h.toInt → -2 ^ 31 ≤ inchesToRaw s.cfg h.toInt → inchesToRaw s.cfg h.toInt < 2 ^ 31 →
      exec (.sett h) s = .next
        { s with hc := { s.hc with tgt := some (BitVec.ofInt 32 (inchesToRaw s.cfg h.toInt)) } }) ∧
    (h.toInt ≤ 0 → exec (.sett h) s = .next { s with hc := { s.hc with tgt := none } })

/-- R172, R178: a `TICK` with a target: the queue is decoded, then the seek step on the newest
height; the detectors stay as they were. -/
def Obligations.TickSeekEffect : Prop :=
  ∀ (s : State) (now : Nat) (upN downN : Bool) (g : Raw),
    s.boot = .running → clockOk now s → s.hc.tgt = some g →
    let fed := feedAll s.rxq s.dec
    let cur := latestHeight s.hc.cur fed.2
    let r : State := { s with dec := fed.1, rxq := [], hc := { s.hc with cur := cur }, lastNow := now }
    exec (.tick now upN downN) s = .next
      (match cur with
       | none => r
       | some c =>
         if (c.toNat : Int) - g.toInt < -5 then
           { r with hc := { r.hc with dir := .up }, out := r.out ++ [.drv .up] }
         else if (c.toNat : Int) - g.toInt > 5 then
           { r with hc := { r.hc with dir := .down }, out := r.out ++ [.drv .down] }
         else { r with hc := { r.hc with dir := .stop, tgt := none }, out := r.out ++ [.drv .stop] })

/-- R173: with a target pending the pins do not matter, and the detectors are neither read nor written, whatever else
the tick does; and a pending target is only ever cleared or changed by arrival within tolerance or by an explicit
override (`SETT`, `SEL`, or the construction of a new trace). -/
def Obligations.SeekIgnoresButtons : Prop :=
  (∀ (s : State) (now : Nat) (u d u' d' : Bool), s.hc.tgt ≠ none →
    exec (.tick now u d) s = exec (.tick now u' d') s) ∧
  (∀ (s : State) (now : Nat) (u d : Bool) (x y : Btn), s.hc.tgt ≠ none →
    exec (.tick now u d) { s with btnUp := x, btnDown := y } =
      andThen (exec (.tick now u d) s) (fun t => .next { t with btnUp := x, btnDown := y })) ∧
  (∀ (i : Instr) (s t : State) (g : Raw), exec i s = .next t → s.hc.tgt = some g → t.hc.tgt ≠ some g →
    (∃ now, i = .reset now) ∨ (∃ h, i = .sett h) ∨ (∃ l, i = .sel l) ∨
    (∃ now u d c, i = .tick now u d ∧ t.hc.cur = some c ∧ -5 ≤ (c.toNat : Int) - g.toInt ∧
      (c.toNat : Int) - g.toInt ≤ 5 ∧ t.hc.dir = .stop ∧ t.hc.tgt = none))

/-- R175 and R224 for a `TICK` without a target on which no double-click fires: the queue is decoded,
both detectors step, and each press event is reacted to, `UP` first. -/
def Obligations.TickIdleEffect : Prop :=
  ∀ (s : State) (now : Nat) (upN downN : Bool),
    s.boot = .running → clockOk now s → s.hc.tgt = none →
    let fed := feedAll s.rxq s.dec
    let up := upd (!upN) now s.btnUp
    let down := upd (!downN) now s.btnDown
    let events := reactionEvents s.cfg.selAttached .up up.press ++ reactionEvents s.cfg.selAttached .down down.press
    up.dclick = false → down.dclick = false →
    exec (.tick now upN downN) s = .next
      { s with
        dec := fed.1, rxq := [],
        hc := { s.hc with
          cur := latestHeight s.hc.cur fed.2,
          dir := if events = [] then s.hc.dir else lastDriven events },
        btnUp := up.btn, btnDown := down.btn,
        sel := { s.sel with idx := if events ≠ [] ∧ s.cfg.selAttached = true then 0 else s.sel.idx },
        out := s.out ++ events,
        lastNow := now }

/-- R174: every `TICK` without a target, whatever the buttons do: the queue is decoded,
then `UP` has its whole turn, then `DOWN`. -/
def Obligations.TickIdleTurns : Prop :=
  ∀ (s : State) (now : Nat) (upN downN : Bool),
    s.boot = .running → clockOk now s → s.hc.tgt = none →
    let fed := feedAll s.rxq s.dec
    exec (.tick now upN downN) s =
      andThen
        (idleTurn .up (!upN) now
          { s with dec := fed.1, rxq := [], hc := { s.hc with cur := latestHeight s.hc.cur fed.2 }, lastNow := now })
        (idleTurn .down (!downN) now)

/-- R205, which the spec marks as derived, for a `TICK` without a target on which one double-click and no press event
arises selects the configured label: the target is set and the label published inside the tick, and no drive is
issued. -/
def Obligations.TickDoubleClickSelects : Prop :=
  ∀ (s : State) (now : Nat) (upN downN : Bool) (b : Button) (i : Nat) (h : Height) (label : Label),
    s.boot = .running → clockOk now s → s.hc.tgt = none → s.cfg.selAttached = true →
    let fed := feedAll s.rxq s.dec
    let up := upd (!upN) now s.btnUp
    let down := upd (!downN) now s.btnDown
    label = (match b with | .up => s.cfg.dcLabelUp | .down => s.cfg.dcLabelDown) →
    up.press = none → down.press = none →
    up.dclick = decide (b = .up) → down.dclick = decide (b = .down) →
    lookup label s.sel.presets = some i → i ≠ 0 → s.sel.presets[i]? = some { label := label, h := some h } →
    0 < h.toInt → -2 ^ 31 ≤ inchesToRaw s.cfg h.toInt → inchesToRaw s.cfg h.toInt < 2 ^ 31 →
    exec (.tick now upN downN) s = .next
      { s with
        dec := fed.1, rxq := [],
        hc := { s.hc with
          cur := latestHeight s.hc.cur fed.2,
          tgt := some (BitVec.ofInt 32 (inchesToRaw s.cfg h.toInt)) },
        btnUp := up.btn, btnDown := down.btn,
        sel := { s.sel with idx := i },
        out := s.out ++ [.pubOpt label],
        lastNow := now }

/-- R180: with no selector attached press events still drive, and a double-click changes nothing outside its
detector. -/
def Obligations.NoSelectorNoSelection : Prop :=
  ∀ (s : State) (now : Nat) (upN downN : Bool),
    s.boot = .running → clockOk now s → s.hc.tgt = none → s.cfg.selAttached = false →
    let fed := feedAll s.rxq s.dec
    let up := upd (!upN) now s.btnUp
    let down := upd (!downN) now s.btnDown
    let events := reactionEvents false .up up.press ++ reactionEvents false .down down.press
    exec (.tick now upN downN) s = .next
      { s with
        dec := fed.1, rxq := [],
        hc := { s.hc with
          cur := latestHeight s.hc.cur fed.2,
          dir := if events = [] then s.hc.dir else lastDriven events },
        btnUp := up.btn, btnDown := down.btn,
        out := s.out ++ events,
        lastNow := now }

/-- R262: a target above 260 or below −5 is never reached: over any trace of the operations that do not override it, it
stays, and every `TICK` with a known height drives towards it, the detectors frozen. -/
def Obligations.UnreachableTargetSoughtForEver : Prop :=
  ∀ (trace : List Instr) (s t : State) (g : Raw), s.hc.tgt = some g → g.toInt > 260 ∨ g.toInt < -5 →
    (∀ i ∈ trace, notReset i ∧ (∀ h, i ≠ .sett h) ∧ ∀ l, i ≠ .sel l) →
    execAll trace s = .next t →
    t.hc.tgt = some g ∧
    ∀ (now : Nat) (u d : Bool), t.boot = .running → clockOk now t → t.hc.cur ≠ none →
      ∃ v, exec (.tick now u d) t = .next v ∧ v.hc.tgt = some g ∧
        v.hc.dir = (if g.toInt > 260 then .up else .down) ∧ v.btnUp = t.btnUp ∧ v.btnDown = t.btnDown

/-- R34, whose last clause the spec marks as derived: the current height is written by `TICK` alone (and `RESET`), and
never returns to absent. -/
def Obligations.CurrentHeightNeverForgotten : Prop :=
  ∀ (i : Instr) (s t : State), exec i s = .next t → notReset i →
    ((∀ now u d, i ≠ .tick now u d) → t.hc.cur = s.hc.cur) ∧ (s.hc.cur ≠ none → t.hc.cur ≠ none)

/-- R176: `SLOWTICK` publishes a height that is present and was not the last one reported, raw before inches, and
does nothing otherwise. -/
def Obligations.SlowtickEffect : Prop :=
  ∀ s : State, s.boot ≠ .unbuilt →
    (s.hc.cur = none ∨ s.hc.cur = s.hc.rep → exec .slowtick s = .next s) ∧
    (∀ c, s.hc.cur = some c → s.hc.rep ≠ some c →
      exec .slowtick s = .next
        { s with
          hc := { s.hc with rep := some c },
          out := s.out ++ [.pubRaw c,
            .pubInch (((c.toNat : Int) - s.cfg.minRaw.toInt) * ((s.cfg.inchScale : Int) / 10) + s.cfg.minH.toInt)] })

/-! ## Selector (44_preset_selector.md) -/

/-- R201: `ADDP` appends its pair between `RESET` and `INIT`, and is refused elsewhere (by the model's names, log 9). -/
def Obligations.AddpEffect : Prop :=
  ∀ (s : State) (label : Label) (h : Height),
    (s.boot = .configuring →
      exec (.addp label h) s = .next
        { s with sel := { s.sel with presets := s.sel.presets ++ [{ label := label, h := some h }] } }) ∧
    (s.boot = .running → exec (.addp label h) s = .refused .addpAfterInit) ∧
    (s.boot = .unbuilt → exec (.addp label h) s = .refused .beforeReset)

/-- R202: `Lookup` gives the least index whose label it is, and `notfound` when there is none; for "None" in a list
that starts with the sentinel it gives 0. -/
def Obligations.LookupFindsLeastIndex : Prop :=
  (∀ (label : Label) (ps : List Preset),
    (∀ i, lookup label ps = some i ↔
      (ps[i]?).map Preset.label = some label ∧ ∀ j < i, (ps[j]?).map Preset.label ≠ some label) ∧
    (lookup label ps = none ↔ ∀ p ∈ ps, p.label ≠ label)) ∧
  (∀ s : State, PresetsFormed s → lookup 0x00#8 s.sel.presets = some 0)

/-- R203: `SEL` of a label that is not in the list does nothing at all; of the label at index 0 it publishes and
moves nothing; of a later label it sets or clears the target from the stored height, then publishes. The name of the
refusal of R162 is the model's (log 11). -/
def Obligations.SelEffect : Prop :=
  ∀ (s : State) (label : Label), s.boot ≠ .unbuilt →
    (lookup label s.sel.presets = none → exec (.sel label) s = .next s) ∧
    (lookup label s.sel.presets = some 0 →
      exec (.sel label) s = .next { s with sel := { s.sel with idx := 0 }, out := s.out ++ [.pubOpt label] }) ∧
    (∀ (i : Nat) (h : Height) (l : Label), lookup label s.sel.presets = some i → i ≠ 0 →
      s.sel.presets[i]? = some { label := l, h := some h } →
      (h.toInt ≤ 0 →
        exec (.sel label) s = .next
          { s with
            hc := { s.hc with tgt := none }, sel := { s.sel with idx := i }, out := s.out ++ [.pubOpt label] }) ∧
      (0 < h.toInt → -2 ^ 31 ≤ inchesToRaw s.cfg h.toInt → inchesToRaw s.cfg h.toInt < 2 ^ 31 →
        exec (.sel label) s = .next
          { s with
            hc := { s.hc with tgt := some (BitVec.ofInt 32 (inchesToRaw s.cfg h.toInt)) },
            sel := { s.sel with idx := i }, out := s.out ++ [.pubOpt label] }) ∧
      (0 < h.toInt → (inchesToRaw s.cfg h.toInt < -2 ^ 31 ∨ 2 ^ 31 ≤ inchesToRaw s.cfg h.toInt) →
        exec (.sel label) s = .refused .targetOutOfRange))

/-- R204: `HCHG` shows "None" and issues no move. -/
def Obligations.HchgEffect : Prop :=
  ∀ s : State, s.boot ≠ .unbuilt →
    exec .hchg s = .next { s with sel := { s.sel with idx := 0 }, out := s.out ++ [.pubOpt 0x00#8] }

/-! ## Pseudo-operations (30_encoding.md R95) -/

/-- R95: what each pseudo-operation does, by its expansion. -/
def Obligations.PseudoOperationEffects : Prop :=
  ∀ (s : State) (b : Byte) (now : Nat), s.boot ≠ .unbuilt →
    execAll (Pseudo.frame b).expand s = .next { s with rxq := s.rxq ++ [0x01#8, 0x01#8, 0x01#8, b] } ∧
    (s.dec.sync = .unsynced →
      execAll (Pseudo.fframe b).expand s = .next
        { s with
          dec := { sync := .unsynced, last := s.dec.cur, cur := some b },
          out := s.out ++ (if s.dec.cur = some b then [.height b] else []) }) ∧
    execAll (Pseudo.ticki now).expand s = exec (.tick now true true) s ∧
    execAll Pseudo.clear.expand s = .next { s with hc := { s.hc with tgt := none } } ∧
    (now + 1000 < 2 ^ s.cfg.timeBits →
      ∃ t, execAll (Pseudo.boot now).expand s = .next t ∧ t.boot = .running ∧ t.lastNow = now ∧
        t.out = [.drv .stop, .drv .up, .delay s.cfg.startupPulseMs, .drv .stop] ∧
        t.sel = { presets := [{ label := 0x00#8, h := none }], idx := 0 } ∧
        t.btnUp.lockout = now + 1000 ∧ t.btnDown.lockout = now + 1000)

/-! ## The whole machine -/

/-- R21, which the spec marks as derived: each operation leaves alone what the table of R21 leaves blank, and no
operation writes a parameter. -/
def Obligations.OperationsKeepToTheirGroups : Prop :=
  ∀ (i : Instr) (s t : State), exec i s = .next t → keepsUntouched i s t

/-- R90, R91: an operation appends to the log, in its own step, only events it may emit. -/
def Obligations.OperationsEmitOnlyTheirEvents : Prop :=
  ∀ (i : Instr) (s t : State), exec i s = .next t → notReset i →
    ∃ es, t.out = s.out ++ es ∧ ∀ e ∈ es, mayEmit i e

/-- R90, R91, R92: the code and the payload of every event word whose payload the spec states. -/
def Obligations.EventWordsAsTabled : Prop :=
  (∀ b : Byte, Event.word (.height b) = 0x100000000#36 ||| b.setWidth 36) ∧
  (∀ p : Bool, Event.word (.press .up p) = 0x200000000#36 ||| (BitVec.ofBool p).setWidth 36) ∧
  (∀ p : Bool, Event.word (.press .down p) = 0x200000002#36 ||| (BitVec.ofBool p).setWidth 36) ∧
  Event.word (.dclick .up) = 0x300000000#36 ∧ Event.word (.dclick .down) = 0x300000002#36 ∧
  Event.word (.drv .stop) = 0x400000000#36 ∧ Event.word (.drv .up) = 0x400000001#36 ∧
  Event.word (.drv .down) = 0x400000002#36 ∧
  (∀ v : BitVec 32, Event.word (.delay v) = 0x500000000#36 ||| v.setWidth 36) ∧
  (∀ b : Byte, Event.word (.pubRaw b) = 0x600000000#36 ||| b.setWidth 36) ∧
  (∀ h : Int, -2 ^ 31 ≤ h → h < 2 ^ 31 →
    Event.word (.pubInch h) = 0x700000000#36 ||| (BitVec.ofInt 32 h).setWidth 36) ∧
  (∀ l : Label, Event.word (.pubOpt l) = 0x800000000#36 ||| l.setWidth 36)

/-- From R42 and R43: every step keeps the form of the preset list and the selected index inside it. -/
def Obligations.PresetListKept : Prop :=
  ∀ s t : State, PresetsFormed s → step s = .next t → PresetsFormed t

/-- The form of R42 and R43 holds at reset. -/
def Obligations.PresetListAtReset : Prop := PresetsFormed State.reset

/-- From R37 and R164: the outputs are always at the direction last driven in the log. -/
def Obligations.DirectionLoggedKept : Prop :=
  ∀ s t : State, DirectionLogged s → step s = .next t → DirectionLogged t

/-- R37, R93: the two output pins in terms of `hc.dir`; they are never both high. -/
def Obligations.OutputPinsFollowDirection : Prop :=
  ∀ s : State, (State.upOut s = true ↔ s.hc.dir = .up) ∧ (State.downOut s = true ↔ s.hc.dir = .down) ∧
    ¬(State.upOut s = true ∧ State.downOut s = true)

/-- From R36 and R176: `hc.rep` is always the last raw height published, and no height is published twice in a row. -/
def Obligations.ReportsDeduplicatedKept : Prop :=
  ∀ s t : State, ReportsDeduplicated s → step s = .next t → ReportsDeduplicated t

/-- From R203 and R204: the selected pair's label is always the label last published, "None" if none was. -/
def Obligations.SelectionShownKept : Prop :=
  ∀ s t : State, PresetsFormed s → SelectionShown s → step s = .next t → SelectionShown t

/-- The three log invariants hold at reset. -/
def Obligations.LogInvariantsAtReset : Prop :=
  DirectionLogged State.reset ∧ ReportsDeduplicated State.reset ∧ SelectionShown State.reset
end

