-- ==== Sys2Proof/Laws/State.lean ====
section
/-! SUPPORT. One lemma per field per update of the state, each true by unfolding the update once. -/

namespace Sys2Proof.Machine

/-! ### `emit` -/

@[simp] theorem emit_dec (e : Event) (s : State) : (emit e s).dec = s.dec := rfl
@[simp] theorem emit_btnUp (e : Event) (s : State) : (emit e s).btnUp = s.btnUp := rfl
@[simp] theorem emit_btnDown (e : Event) (s : State) : (emit e s).btnDown = s.btnDown := rfl
@[simp] theorem emit_hc (e : Event) (s : State) : (emit e s).hc = s.hc := rfl
@[simp] theorem emit_rxq (e : Event) (s : State) : (emit e s).rxq = s.rxq := rfl
@[simp] theorem emit_sel (e : Event) (s : State) : (emit e s).sel = s.sel := rfl
@[simp] theorem emit_out (e : Event) (s : State) : (emit e s).out = s.out ++ [e] := rfl
@[simp] theorem emit_cfg (e : Event) (s : State) : (emit e s).cfg = s.cfg := rfl
@[simp] theorem emit_boot (e : Event) (s : State) : (emit e s).boot = s.boot := rfl
@[simp] theorem emit_lastNow (e : Event) (s : State) : (emit e s).lastNow = s.lastNow := rfl
@[simp] theorem emit_cmds (e : Event) (s : State) : (emit e s).cmds = s.cmds := rfl

/-! ### `drive` -/

@[simp] theorem drive_dec (d : Dir) (s : State) : (drive d s).dec = s.dec := rfl
@[simp] theorem drive_btnUp (d : Dir) (s : State) : (drive d s).btnUp = s.btnUp := rfl
@[simp] theorem drive_btnDown (d : Dir) (s : State) : (drive d s).btnDown = s.btnDown := rfl
@[simp] theorem drive_hc (d : Dir) (s : State) : (drive d s).hc = { s.hc with dir := d } := rfl
@[simp] theorem drive_rxq (d : Dir) (s : State) : (drive d s).rxq = s.rxq := rfl
@[simp] theorem drive_sel (d : Dir) (s : State) : (drive d s).sel = s.sel := rfl
@[simp] theorem drive_out (d : Dir) (s : State) : (drive d s).out = s.out ++ [.drv d] := rfl
@[simp] theorem drive_cfg (d : Dir) (s : State) : (drive d s).cfg = s.cfg := rfl
@[simp] theorem drive_boot (d : Dir) (s : State) : (drive d s).boot = s.boot := rfl
@[simp] theorem drive_lastNow (d : Dir) (s : State) : (drive d s).lastNow = s.lastNow := rfl
@[simp] theorem drive_cmds (d : Dir) (s : State) : (drive d s).cmds = s.cmds := rfl

/-! ### `writeTgt` -/

@[simp] theorem writeTgt_dec (r : Option Raw) (s : State) : (writeTgt r s).dec = s.dec := rfl
@[simp] theorem writeTgt_btnUp (r : Option Raw) (s : State) : (writeTgt r s).btnUp = s.btnUp := rfl
@[simp] theorem writeTgt_btnDown (r : Option Raw) (s : State) : (writeTgt r s).btnDown = s.btnDown := rfl
@[simp] theorem writeTgt_hc (r : Option Raw) (s : State) : (writeTgt r s).hc = { s.hc with tgt := r } := rfl
@[simp] theorem writeTgt_rxq (r : Option Raw) (s : State) : (writeTgt r s).rxq = s.rxq := rfl
@[simp] theorem writeTgt_sel (r : Option Raw) (s : State) : (writeTgt r s).sel = s.sel := rfl
@[simp] theorem writeTgt_out (r : Option Raw) (s : State) : (writeTgt r s).out = s.out := rfl
@[simp] theorem writeTgt_cfg (r : Option Raw) (s : State) : (writeTgt r s).cfg = s.cfg := rfl
@[simp] theorem writeTgt_boot (r : Option Raw) (s : State) : (writeTgt r s).boot = s.boot := rfl
@[simp] theorem writeTgt_lastNow (r : Option Raw) (s : State) : (writeTgt r s).lastNow = s.lastNow := rfl
@[simp] theorem writeTgt_cmds (r : Option Raw) (s : State) : (writeTgt r s).cmds = s.cmds := rfl

/-! ### `writeIdx` -/

@[simp] theorem writeIdx_dec (i : Nat) (s : State) : (writeIdx i s).dec = s.dec := rfl
@[simp] theorem writeIdx_btnUp (i : Nat) (s : State) : (writeIdx i s).btnUp = s.btnUp := rfl
@[simp] theorem writeIdx_btnDown (i : Nat) (s : State) : (writeIdx i s).btnDown = s.btnDown := rfl
@[simp] theorem writeIdx_hc (i : Nat) (s : State) : (writeIdx i s).hc = s.hc := rfl
@[simp] theorem writeIdx_rxq (i : Nat) (s : State) : (writeIdx i s).rxq = s.rxq := rfl
@[simp] theorem writeIdx_sel (i : Nat) (s : State) : (writeIdx i s).sel = { s.sel with idx := i } := rfl
@[simp] theorem writeIdx_out (i : Nat) (s : State) : (writeIdx i s).out = s.out := rfl
@[simp] theorem writeIdx_cfg (i : Nat) (s : State) : (writeIdx i s).cfg = s.cfg := rfl
@[simp] theorem writeIdx_boot (i : Nat) (s : State) : (writeIdx i s).boot = s.boot := rfl
@[simp] theorem writeIdx_lastNow (i : Nat) (s : State) : (writeIdx i s).lastNow = s.lastNow := rfl
@[simp] theorem writeIdx_cmds (i : Nat) (s : State) : (writeIdx i s).cmds = s.cmds := rfl

/-! ### `heightChanged` -/

@[simp] theorem heightChanged_dec (s : State) : (heightChanged s).dec = s.dec := rfl
@[simp] theorem heightChanged_btnUp (s : State) : (heightChanged s).btnUp = s.btnUp := rfl
@[simp] theorem heightChanged_btnDown (s : State) : (heightChanged s).btnDown = s.btnDown := rfl
@[simp] theorem heightChanged_hc (s : State) : (heightChanged s).hc = s.hc := rfl
@[simp] theorem heightChanged_rxq (s : State) : (heightChanged s).rxq = s.rxq := rfl
@[simp] theorem heightChanged_sel (s : State) : (heightChanged s).sel = { s.sel with idx := 0 } := rfl
@[simp] theorem heightChanged_out (s : State) : (heightChanged s).out = s.out ++ [.pubOpt lblNone] := rfl
@[simp] theorem heightChanged_cfg (s : State) : (heightChanged s).cfg = s.cfg := rfl
@[simp] theorem heightChanged_boot (s : State) : (heightChanged s).boot = s.boot := rfl
@[simp] theorem heightChanged_lastNow (s : State) : (heightChanged s).lastNow = s.lastNow := rfl
@[simp] theorem heightChanged_cmds (s : State) : (heightChanged s).cmds = s.cmds := rfl

/-! ### `appendPreset` -/

@[simp] theorem appendPreset_dec (l : Label) (h : Height) (s : State) : (appendPreset l h s).dec = s.dec := rfl
@[simp] theorem appendPreset_btnUp (l : Label) (h : Height) (s : State) : (appendPreset l h s).btnUp = s.btnUp := rfl
@[simp] theorem appendPreset_btnDown (l : Label) (h : Height) (s : State) : (appendPreset l h s).btnDown = s.btnDown := rfl
@[simp] theorem appendPreset_hc (l : Label) (h : Height) (s : State) : (appendPreset l h s).hc = s.hc := rfl
@[simp] theorem appendPreset_rxq (l : Label) (h : Height) (s : State) : (appendPreset l h s).rxq = s.rxq := rfl
@[simp] theorem appendPreset_sel (l : Label) (h : Height) (s : State) : (appendPreset l h s).sel = { s.sel with presets := s.sel.presets ++ [{ label := l, h := some h }] } := rfl
@[simp] theorem appendPreset_out (l : Label) (h : Height) (s : State) : (appendPreset l h s).out = s.out := rfl
@[simp] theorem appendPreset_cfg (l : Label) (h : Height) (s : State) : (appendPreset l h s).cfg = s.cfg := rfl
@[simp] theorem appendPreset_boot (l : Label) (h : Height) (s : State) : (appendPreset l h s).boot = s.boot := rfl
@[simp] theorem appendPreset_lastNow (l : Label) (h : Height) (s : State) : (appendPreset l h s).lastNow = s.lastNow := rfl
@[simp] theorem appendPreset_cmds (l : Label) (h : Height) (s : State) : (appendPreset l h s).cmds = s.cmds := rfl

/-! ### `pushCommand` -/

@[simp] theorem pushCommand_dec (w : Command) (s : State) : (pushCommand w s).dec = s.dec := rfl
@[simp] theorem pushCommand_btnUp (w : Command) (s : State) : (pushCommand w s).btnUp = s.btnUp := rfl
@[simp] theorem pushCommand_btnDown (w : Command) (s : State) : (pushCommand w s).btnDown = s.btnDown := rfl
@[simp] theorem pushCommand_hc (w : Command) (s : State) : (pushCommand w s).hc = s.hc := rfl
@[simp] theorem pushCommand_rxq (w : Command) (s : State) : (pushCommand w s).rxq = s.rxq := rfl
@[simp] theorem pushCommand_sel (w : Command) (s : State) : (pushCommand w s).sel = s.sel := rfl
@[simp] theorem pushCommand_out (w : Command) (s : State) : (pushCommand w s).out = s.out := rfl
@[simp] theorem pushCommand_cfg (w : Command) (s : State) : (pushCommand w s).cfg = s.cfg := rfl
@[simp] theorem pushCommand_boot (w : Command) (s : State) : (pushCommand w s).boot = s.boot := rfl
@[simp] theorem pushCommand_lastNow (w : Command) (s : State) : (pushCommand w s).lastNow = s.lastNow := rfl
@[simp] theorem pushCommand_cmds (w : Command) (s : State) : (pushCommand w s).cmds = .word w :: s.cmds := rfl

/-! ### `startupPulse` -/

@[simp] theorem startupPulse_dec (s : State) : (startupPulse s).dec = s.dec := rfl
@[simp] theorem startupPulse_btnUp (s : State) : (startupPulse s).btnUp = s.btnUp := rfl
@[simp] theorem startupPulse_btnDown (s : State) : (startupPulse s).btnDown = s.btnDown := rfl
@[simp] theorem startupPulse_hc (s : State) : (startupPulse s).hc = { s.hc with dir := .stop } := rfl
@[simp] theorem startupPulse_rxq (s : State) : (startupPulse s).rxq = s.rxq := rfl
@[simp] theorem startupPulse_sel (s : State) : (startupPulse s).sel = s.sel := rfl
@[simp] theorem startupPulse_out (s : State) : (startupPulse s).out = s.out ++ [.drv .stop] ++ [.drv .up] ++ [.delay s.cfg.startupPulseMs] ++ [.drv .stop] := rfl
@[simp] theorem startupPulse_cfg (s : State) : (startupPulse s).cfg = s.cfg := rfl
@[simp] theorem startupPulse_boot (s : State) : (startupPulse s).boot = s.boot := rfl
@[simp] theorem startupPulse_lastNow (s : State) : (startupPulse s).lastNow = s.lastNow := rfl
@[simp] theorem startupPulse_cmds (s : State) : (startupPulse s).cmds = s.cmds := rfl

/-! ### `State.setBtn` -/

@[simp] theorem setBtn_dec (s : State) (b : Button) (v : Btn) : (State.setBtn s b v).dec = s.dec := by cases b <;> rfl
@[simp] theorem setBtn_hc (s : State) (b : Button) (v : Btn) : (State.setBtn s b v).hc = s.hc := by cases b <;> rfl
@[simp] theorem setBtn_rxq (s : State) (b : Button) (v : Btn) : (State.setBtn s b v).rxq = s.rxq := by cases b <;> rfl
@[simp] theorem setBtn_sel (s : State) (b : Button) (v : Btn) : (State.setBtn s b v).sel = s.sel := by cases b <;> rfl
@[simp] theorem setBtn_out (s : State) (b : Button) (v : Btn) : (State.setBtn s b v).out = s.out := by cases b <;> rfl
@[simp] theorem setBtn_cfg (s : State) (b : Button) (v : Btn) : (State.setBtn s b v).cfg = s.cfg := by cases b <;> rfl
@[simp] theorem setBtn_boot (s : State) (b : Button) (v : Btn) : (State.setBtn s b v).boot = s.boot := by cases b <;> rfl
@[simp] theorem setBtn_lastNow (s : State) (b : Button) (v : Btn) : (State.setBtn s b v).lastNow = s.lastNow := by cases b <;> rfl
@[simp] theorem setBtn_cmds (s : State) (b : Button) (v : Btn) : (State.setBtn s b v).cmds = s.cmds := by cases b <;> rfl

@[simp] theorem setBtn_up (s : State) (v : Btn) : State.setBtn s .up v = { s with btnUp := v } := rfl
@[simp] theorem setBtn_down (s : State) (v : Btn) : State.setBtn s .down v = { s with btnDown := v } := rfl
@[simp] theorem btn_up (s : State) : State.btn s .up = s.btnUp := rfl
@[simp] theorem btn_down (s : State) : State.btn s .down = s.btnDown := rfl

/-- A detector just written is read back. -/
@[simp] theorem btn_setBtn_same (s : State) (b : Button) (v : Btn) : State.btn (State.setBtn s b v) b = v := by
  cases b <;> rfl

/-- Writing one detector leaves the other. -/
theorem btn_setBtn_other (s : State) (b c : Button) (v : Btn) (h : c ≠ b) :
    State.btn (State.setBtn s b v) c = State.btn s c := by
  cases b <;> cases c <;> first | rfl | exact absurd rfl h

/-- The state `State.reset` names is what `RESET 0` leaves of it. -/
theorem constructed_zero_reset : constructed 0 State.reset = State.reset := rfl

end Sys2Proof.Machine
end

