-- ==== Sys2Proof/Laws/Ops.lean ====
section
/-! SUPPORT. For each shared operation, one lemma that says everything it can do. -/

namespace Sys2Proof.Machine

/-! ## Sequencing and premises -/

@[simp] theorem andThen_next (s : State) (f : State → Result) : andThen (.next s) f = f s := rfl
@[simp] theorem andThen_refused (r : Refusal) (f : State → Result) : andThen (.refused r) f = .refused r := rfl

theorem andThen_eq_next {o : Result} {f : State → Result} {t : State} :
    andThen o f = .next t ↔ ∃ s, o = .next s ∧ f s = .next t := by
  cases o <;> simp [andThen]

theorem andThen_eq_refused {o : Result} {f : State → Result} {r : Refusal} :
    andThen o f = .refused r ↔ o = .refused r ∨ ∃ s, o = .next s ∧ f s = .refused r := by
  cases o <;> simp [andThen]

theorem afterReset_built {s : State} (h : s.boot ≠ .unbuilt) (k : Result) : afterReset s k = k := by
  unfold afterReset; split <;> simp_all

theorem afterReset_unbuilt {s : State} (h : s.boot = .unbuilt) (k : Result) :
    afterReset s k = .refused .beforeReset := by
  simp [afterReset, h]

theorem afterReset_eq_next {s t : State} {k : Result} :
    afterReset s k = .next t ↔ s.boot ≠ .unbuilt ∧ k = .next t := by
  unfold afterReset; split <;> simp_all

theorem afterReset_eq_refused {s : State} {k : Result} {r : Refusal} :
    afterReset s k = .refused r ↔
      (s.boot = .unbuilt ∧ r = .beforeReset) ∨ (s.boot ≠ .unbuilt ∧ k = .refused r) := by
  cases hb : s.boot <;> simp [afterReset, hb]
  exact ⟨Eq.symm, Eq.symm⟩

theorem timeFits_iff (bits k : Nat) (now : Nat) : timeFits bits k now = true ↔ now + k < 2 ^ bits :=
  decide_eq_true_iff

theorem ms_le (a b : Nat) : ms a ≤ ms b ↔ a ≤ b := Int.ofNat_le
theorem ms_lt (a b : Nat) : ms a < ms b ↔ a < b := Int.ofNat_lt

/-- `atTime` under the clock premise. -/
theorem atTime_ok {now : Nat} {s : State} (h : clockOk now s) (k : State → Result) :
    atTime now s k = k { s with lastNow := now } := by
  unfold atTime
  rw [if_pos ((timeFits_iff _ lockoutMs _).2 h.1), if_pos ((ms_le _ _).2 h.2)]

/-- `atTime` when `now + 1000` reaches `2^TIME_BITS` (X1). -/
theorem atTime_wrap {now : Nat} {s : State} (h : 2 ^ s.cfg.timeBits ≤ now + 1000) (k : State → Result) :
    atTime now s k = .refused .clockWrap := by
  unfold atTime
  rw [if_neg (fun e => absurd ((timeFits_iff _ lockoutMs _).1 e) (Nat.not_lt.2 h))]

/-- `atTime` when `now` is before the trace's latest time (X2). -/
theorem atTime_backwards {now : Nat} {s : State} (h : now + 1000 < 2 ^ s.cfg.timeBits)
    (h2 : now < s.lastNow) (k : State → Result) : atTime now s k = .refused .clockBackwards := by
  unfold atTime
  rw [if_pos ((timeFits_iff _ lockoutMs _).2 h), if_neg (fun e => absurd ((ms_le _ _).1 e) (Nat.not_le.2 h2))]

/-- The three situations of an operation that carries a time. -/
theorem clock_cases (now : Nat) (s : State) :
    clockOk now s ∨ 2 ^ s.cfg.timeBits ≤ now + 1000 ∨
      (now + 1000 < 2 ^ s.cfg.timeBits ∧ now < s.lastNow) := by
  unfold clockOk; omega

theorem atTime_eq_next {now : Nat} {s t : State} {k : State → Result} :
    atTime now s k = .next t ↔ clockOk now s ∧ k { s with lastNow := now } = .next t := by
  rcases clock_cases now s with h | h | ⟨h, h2⟩
  · rw [atTime_ok h]; exact ⟨fun e => ⟨h, e⟩, And.right⟩
  · rw [atTime_wrap h]; exact ⟨nofun, fun e => absurd e.1.1 (Nat.not_lt.2 h)⟩
  · rw [atTime_backwards h h2]; exact ⟨nofun, fun e => absurd e.1.2 (Nat.not_le.2 h2)⟩

/-- Why an operation that carries a time is refused. -/
theorem atTime_eq_refused {now : Nat} {s : State} {k : State → Result} {r : Refusal} :
    atTime now s k = .refused r ↔
    (2 ^ s.cfg.timeBits ≤ now + 1000 ∧ r = .clockWrap) ∨
    (now + 1000 < 2 ^ s.cfg.timeBits ∧ now < s.lastNow ∧ r = .clockBackwards) ∨
    (clockOk now s ∧ k { s with lastNow := now } = .refused r) := by
  unfold clockOk
  rcases clock_cases now s with h | h | ⟨h, h2⟩
  · rw [atTime_ok h]
    refine ⟨fun e => .inr (.inr ⟨h, e⟩), fun e => ?_⟩
    unfold clockOk at h
    rcases e with e | e | e <;> first | exact e.2 | omega
  · rw [atTime_wrap h, Host.Outcome.refused.injEq]
    refine ⟨fun e => .inl ⟨h, e.symm⟩, fun e => ?_⟩
    rcases e with e | e | e <;> first | exact e.2.symm | omega
  · rw [atTime_backwards h h2, Host.Outcome.refused.injEq]
    refine ⟨fun e => .inr (.inl ⟨h, h2, e.symm⟩), fun e => ?_⟩
    rcases e with e | e | e <;> first | exact e.2.2.symm | omega

/-! ## Target and selector -/

/-- `SetTarget` either sets the converted target of a positive height, or clears. -/
theorem setTarget_eq_next {h : Height} {s t : State} :
    setTarget h s = .next t ↔
      (0 < h.toInt ∧ (-2 ^ 31 ≤ inchesToRaw s.cfg h.toInt ∧ inchesToRaw s.cfg h.toInt < 2 ^ 31) ∧
        t = writeTgt (some (BitVec.ofInt 32 (inchesToRaw s.cfg h.toInt))) s) ∨
      (h.toInt ≤ 0 ∧ t = writeTgt none s) := by
  unfold setTarget Height.units fitsRaw
  by_cases h1 : 0 < h.toInt
  · by_cases h2 : -2 ^ 31 ≤ inchesToRaw s.cfg h.toInt ∧ inchesToRaw s.cfg h.toInt < 2 ^ 31
    · simp only [h1, h2, if_true, decide_true, Host.Outcome.next.injEq, true_and, and_self]
      constructor
      · intro e; exact .inl e.symm
      · rintro (e | ⟨e, _⟩)
        · exact e.symm
        · omega
    · simp only [h1, h2, if_true, decide_false, true_and, false_and, false_or]
      simp only [Bool.false_eq_true, if_false, reduceCtorEq, false_iff]
      omega
  · simp only [h1, if_false, Host.Outcome.next.injEq, false_and, false_or]
    constructor
    · intro e; exact ⟨by omega, e.symm⟩
    · rintro ⟨_, e⟩; exact e.symm

/-- `SetTarget` is refused for a converted target outside 32 bits only. -/
theorem setTarget_eq_refused {h : Height} {s : State} {r : Refusal} :
    setTarget h s = .refused r ↔ heightOutOfRange s.cfg h ∧ r = .targetOutOfRange := by
  unfold setTarget Height.units fitsRaw heightOutOfRange
  by_cases h1 : 0 < h.toInt
  · by_cases h2 : -2 ^ 31 ≤ inchesToRaw s.cfg h.toInt ∧ inchesToRaw s.cfg h.toInt < 2 ^ 31
    · rw [if_pos h1, if_pos (decide_eq_true h2)]
      exact ⟨nofun, fun e => by omega⟩
    · rw [if_pos h1, if_neg (fun e => absurd (of_decide_eq_true e) h2), Host.Outcome.refused.injEq]
      exact ⟨fun e => ⟨⟨h1, by omega⟩, e.symm⟩, fun e => e.2.symm⟩
  · rw [if_neg h1]
    exact ⟨nofun, fun e => absurd e.1.1 h1⟩

theorem presetHeight_eq_some {i : Nat} {s : State} {h : Height} :
    presetHeight i s = some h ↔ ∃ l, s.sel.presets[i]? = some { label := l, h := some h } := by
  unfold presetHeight
  constructor
  · intro e
    split at e
    · rename_i p hp; exact ⟨p.label, by rw [hp, ← e]⟩
    · simp at e
  · rintro ⟨l, e⟩; rw [e]

/-- A preset's line of `Select` leaves the state, or calls `SetTarget` with the stored height. -/
theorem forwardPreset_cases (i : Nat) (s : State) :
    forwardPreset i s = .next s ∨
      ∃ h, i ≠ 0 ∧ presetHeight i s = some h ∧ forwardPreset i s = setTarget h s := by
  unfold forwardPreset
  split
  · exact .inl rfl
  · rename_i hi
    split
    · rename_i h e; exact .inr ⟨h, hi, e, rfl⟩
    · exact .inl rfl

/-- What a preset's line of `Select` writes: at most the target. -/
theorem forwardPreset_eq_next {i : Nat} {s t : State} (h : forwardPreset i s = .next t) :
    t = s ∨ ∃ r, t = writeTgt r s := by
  rcases forwardPreset_cases i s with e | ⟨v, -, -, e⟩
  · rw [e] at h; simp only [Host.Outcome.next.injEq] at h; exact .inl h.symm
  · rw [e, setTarget_eq_next] at h
    rcases h with ⟨_, _, h⟩ | ⟨_, h⟩
    · exact .inr ⟨_, h⟩
    · exact .inr ⟨_, h⟩

/-- What `Select` does when it answers a next state: nothing for a label that is not found; else at most the target,
then the index, then the publication. -/
theorem select_eq_next {l : Label} {s t : State} (h : select l s = .next t) :
    (lookup l s.sel.presets = none ∧ t = s) ∨
    ∃ i u, lookup l s.sel.presets = some i ∧ (u = s ∨ ∃ r, u = writeTgt r s) ∧
      t = emit (.pubOpt l) (writeIdx i u) := by
  unfold select at h
  split at h
  · rename_i e; simp only [Host.Outcome.next.injEq] at h; exact .inl ⟨e, h.symm⟩
  · rename_i i e
    obtain ⟨u, hu, h⟩ := andThen_eq_next.1 h
    simp only [Host.Outcome.next.injEq] at h
    exact .inr ⟨i, u, e, forwardPreset_eq_next hu, h.symm⟩

/-- `Select` is refused for a found preset whose height is out of range only. -/
theorem select_eq_refused {l : Label} {s : State} {r : Refusal} :
    select l s = .refused r ↔ presetOutOfRange l s ∧ r = .targetOutOfRange := by
  unfold presetOutOfRange select
  cases e : lookup l s.sel.presets with
  | none => simp
  | some i =>
    have fwd : ∀ r, forwardPreset i s = .refused r ↔
        (i ≠ 0 ∧ ∃ h m, s.sel.presets[i]? = some { label := m, h := some h } ∧ heightOutOfRange s.cfg h) ∧
          r = .targetOutOfRange := by
      intro r
      rcases forwardPreset_cases i s with e | ⟨v, hi, hv, e⟩
      · rw [e]
        refine ⟨nofun, ?_⟩
        rintro ⟨⟨hi, h, m, hp, ho⟩, -⟩
        have : forwardPreset i s = setTarget h s := by
          unfold forwardPreset; rw [if_neg hi, presetHeight_eq_some.2 ⟨m, hp⟩]
        rw [e, eq_comm] at this
        exact absurd ((setTarget_eq_refused (r := .targetOutOfRange)).2 ⟨ho, rfl⟩) (by rw [this]; nofun)
      · rw [e, setTarget_eq_refused]
        obtain ⟨m, hm⟩ := presetHeight_eq_some.1 hv
        constructor
        · rintro ⟨ho, hr⟩; exact ⟨⟨hi, v, m, hm, ho⟩, hr⟩
        · rintro ⟨⟨-, h, m', hm', ho⟩, hr⟩
          rw [hm] at hm'; simp only [Option.some.injEq, Preset.mk.injEq] at hm'
          rw [hm'.2]; exact ⟨ho, hr⟩
    dsimp only
    rw [andThen_eq_refused]
    constructor
    · rintro (h | ⟨_, _, h⟩)
      · obtain ⟨⟨hi, h, m, hp, ho⟩, hr⟩ := (fwd r).1 h
        exact ⟨⟨i, h, m, rfl, hi, hp, ho⟩, hr⟩
      · exact absurd h nofun
    · rintro ⟨⟨k, h, m, hk, hi, hp, ho⟩, hr⟩
      cases hk
      exact .inl ((fwd r).2 ⟨⟨hi, h, m, hp, ho⟩, hr⟩)

/-- Whether a label's preset is out of range depends on the list and the parameters alone. -/
theorem presetOutOfRange_congr {s t : State} (hc : t.cfg = s.cfg) (hp : t.sel.presets = s.sel.presets) (l : Label) :
    presetOutOfRange l t ↔ presetOutOfRange l s := by
  unfold presetOutOfRange; rw [hc, hp]

theorem requestPreset_eq_refused {l : Label} {s : State} {r : Refusal} :
    requestPreset l s = .refused r ↔ s.cfg.selAttached = true ∧ presetOutOfRange l s ∧ r = .targetOutOfRange := by
  unfold requestPreset
  cases h : s.cfg.selAttached
  · simp
  · simpa using select_eq_refused

theorem requestPreset_eq_next {l : Label} {s t : State} (h : requestPreset l s = .next t) :
    t = s ∨ (s.cfg.selAttached = true ∧ select l s = .next t) := by
  unfold requestPreset at h
  split at h
  · rename_i e; exact .inr ⟨e, h⟩
  · simp only [Host.Outcome.next.injEq] at h; exact .inl h.symm

theorem notifyManual_cases (s : State) :
    (s.cfg.selAttached = true ∧ notifyManual s = heightChanged s) ∨
      (s.cfg.selAttached = false ∧ notifyManual s = s) := by
  unfold notifyManual
  cases e : s.cfg.selAttached <;> simp

/-- `Lookup` finds an index in the list whose label it is. -/
theorem lookup_some {l : Label} {ps : List Preset} {i : Nat} (h : lookup l ps = some i) :
    (ps[i]?).map Preset.label = some l := by
  induction ps generalizing i with
  | nil => simp [lookup] at h
  | cons p rest ih =>
    unfold lookup at h
    split at h
    · rename_i e; simp only [Option.some.injEq] at h; subst h; simp [e]
    · obtain ⟨j, hj, rfl⟩ := Option.map_eq_some_iff.1 h
      simpa using ih hj

/-! ## Decoder -/

theorem feedAll_cons (b : Byte) (rest : List Byte) (d : Dec) :
    feedAll (b :: rest) d =
      ((feedAll rest (feed b d).1).1, (feed b d).2.toList ++ (feedAll rest (feed b d).1).2) := rfl

theorem latestHeight_cons (old : Option Byte) (v : Byte) (hs : List Byte) :
    latestHeight old (v :: hs) = latestHeight (some v) hs := by
  cases hs <;> simp [latestHeight, List.getLast?_cons_cons]
  cases h : (List.getLast? _ : Option Byte) <;> simp_all

theorem receiveByte_rxq (b : Byte) (s : State) : (receiveByte b s).rxq = s.rxq := by
  unfold receiveByte; dsimp only; split <;> rfl

/-- The receive loop with the whole queue: the decoder and the current height after all queued bytes. -/
theorem receive_eq (s : State) :
    receive s = { s with
      dec := (feedAll s.rxq s.dec).1
      rxq := []
      hc := { s.hc with cur := latestHeight s.hc.cur (feedAll s.rxq s.dec).2 } } := by
  suffices H : ∀ (q : List Byte) (s : State), s.rxq = q → receiveLoop q.length s = { s with
      dec := (feedAll q s.dec).1
      rxq := []
      hc := { s.hc with cur := latestHeight s.hc.cur (feedAll q s.dec).2 } } from H s.rxq s rfl
  intro q
  induction q with
  | nil => intro s h; cases s; subst h; rfl
  | cons b rest ih =>
    intro s h
    have step : receiveLoop (b :: rest).length s = receiveLoop rest.length (receiveByte b { s with rxq := rest }) := by
      simp only [List.length_cons, receiveLoop, rxPop, h]
    rw [step, ih _ (receiveByte_rxq _ _)]
    rcases e : feed b s.dec with ⟨d, r⟩
    cases r with
    | none => simp [receiveByte, feedAll_cons, e]
    | some v => simp [receiveByte, feedAll_cons, e, latestHeight_cons]

/-! ## Detector -/

@[simp] theorem captureEdge_disp (l : Bool) (now : Nat) (b : Btn) : (captureEdge l now b).disp = b.disp := by
  unfold captureEdge; split; · rfl
  split <;> rfl
@[simp] theorem captureEdge_lockout (l : Bool) (now : Nat) (b : Btn) :
    (captureEdge l now b).lockout = b.lockout := by
  unfold captureEdge; split; · rfl
  split <;> rfl
@[simp] theorem captureEdge_level (l : Bool) (now : Nat) (b : Btn) : (captureEdge l now b).level = l := by
  unfold captureEdge; split
  · rename_i h; exact h.symm
  split <;> rfl

/-- The press step writes `disp` alone. -/
theorem dispatchPress_eq (now : Nat) (b : Btn) :
    dispatchPress now b =
      ({ b with disp := pressed now b }, if pressed now b = b.disp then none else some (pressed now b)) := by
  unfold dispatchPress
  split
  · rename_i h; rw [h]
  · rfl

/-- The double-click step writes `lockout` alone. -/
theorem fireDoubleClick_eq (now : Nat) (b : Btn) :
    fireDoubleClick now b =
      ({ b with lockout := if doubleClick now b then lockoutFrom now else b.lockout }, doubleClick now b) := by
  unfold fireDoubleClick
  cases doubleClick now b <;> rfl

/-- The whole of `Upd`: the captured edge with the new `disp` and `lockout`, and the two results. -/
theorem upd_eq (l : Bool) (now : Nat) (b : Btn) :
    upd l now b =
      { btn := { captureEdge l now b with
          disp := pressed now (captureEdge l now b)
          lockout := if doubleClick now (captureEdge l now b) then lockoutFrom now else b.lockout }
        press := if pressed now (captureEdge l now b) = b.disp then none
          else some (pressed now (captureEdge l now b))
        dclick := doubleClick now (captureEdge l now b) } := by
  have key : ∀ (e : Btn) (p : Bool), doubleClick now { e with disp := p } = doubleClick now e := fun _ _ => rfl
  unfold upd
  simp only [dispatchPress_eq, fireDoubleClick_eq, key, captureEdge_disp]
  rw [captureEdge_lockout]

/-! ## Conversions -/

/-- `RND` on an integer quotient. -/
theorem rnd_exact (k : Int) {den : Nat} (h : 0 < den) : rnd (k * den) den = k := by
  have h' : (den : Int) ≠ 0 := by omega
  unfold rnd
  rw [if_pos (Int.mul_emod_left _ _), Int.mul_ediv_cancel _ h']

/-- `RND` differs from its quotient by less than 1 (R162 (2)), both sides multiplied by the denominator. -/
theorem rnd_close (num : Int) {den : Nat} (h : 0 < den) :
    rnd num den * den - num < den ∧ num - rnd num den * den < den := by
  have h0 : (0 : Int) < den := by omega
  have e := Int.mul_ediv_add_emod num den
  have l := Int.emod_nonneg num (by omega : (den : Int) ≠ 0)
  have u := Int.emod_lt_of_pos num h0
  rw [mul_comm] at e
  unfold rnd
  split
  · rename_i z; omega
  · rename_i z
    split
    · rw [Int.add_mul]; omega
    · omega

end Sys2Proof.Machine
end

