-- ==== Sys2Proof/Laws/Controller.lean ====
section
/-! SUPPORT. What the phases of `TICK` can do (43_height_controller.md R169 to R175). -/

namespace Sys2Proof.Machine

/-- The whole effect of a press reaction: the drive, the notification, and nothing else. -/
theorem pressReaction_eq (b : Button) (p : Option Bool) (s : State) :
    pressReaction b p s =
      { s with
        hc := { s.hc with
          dir := match p with
            | none => s.hc.dir
            | some q => if q = true then buttonDir b else .stop }
        sel := { s.sel with idx := if p ≠ none ∧ s.cfg.selAttached = true then 0 else s.sel.idx }
        out := s.out ++ reactionEvents s.cfg.selAttached b p } := by
  rcases p with _ | _ | _
  · simp [pressReaction, reactionEvents]
  all_goals
    cases h : s.cfg.selAttached <;> cases b <;>
      simp [pressReaction, reactionEvents, notifyManual, heightChanged, drive, emit, writeIdx, buttonDir, lblNone, h]

/-- The state of button `b`'s turn before its double-click is looked at. -/
def pressTurn (b : Button) (level : Bool) (now : Nat) (s : State) : State :=
  pressReaction b (upd level now (State.btn s b)).press (State.setBtn s b (upd level now (State.btn s b)).btn)

/-- A button's turn ends after its press reaction, or goes on to select the configured label. -/
theorem buttonStep_eq_next {b : Button} {level : Bool} {now : Nat} {s t : State}
    (h : buttonStep b level now s = .next t) :
    t = pressTurn b level now s ∨
      ((upd level now (State.btn s b)).dclick = true ∧ s.cfg.selAttached = true ∧
        select (Params.dcLabel s.cfg b) (pressTurn b level now s) = .next t) := by
  have hc : (pressTurn b level now s).cfg = s.cfg := by simp [pressTurn, pressReaction_eq]
  unfold buttonStep dclickReaction at h
  dsimp only at h
  split at h
  · rename_i hd
    rcases requestPreset_eq_next h with e | ⟨ha, e⟩
    · exact .inl e
    · change (pressTurn b level now s).cfg.selAttached = true at ha
      change select (Params.dcLabel (pressTurn b level now s).cfg b) (pressTurn b level now s) = .next t at e
      rw [hc] at ha e
      exact .inr ⟨hd, ha, e⟩
  · simp only [Host.Outcome.next.injEq] at h
    exact .inl h.symm

/-- A button's turn is refused for a double-click that selects a preset out of range only. -/
theorem buttonStep_eq_refused {b : Button} {level : Bool} {now : Nat} {s : State} {r : Refusal} :
    buttonStep b level now s = .refused r ↔
      (upd level now (State.btn s b)).dclick = true ∧ s.cfg.selAttached = true ∧
        presetOutOfRange (Params.dcLabel s.cfg b) s ∧ r = .targetOutOfRange := by
  have hc : (pressTurn b level now s).cfg = s.cfg := by simp [pressTurn, pressReaction_eq]
  have hp : (pressTurn b level now s).sel.presets = s.sel.presets := by simp [pressTurn, pressReaction_eq]
  unfold buttonStep dclickReaction
  dsimp only
  cases hd : (upd level now (State.btn s b)).dclick
  · simp
  · change requestPreset (Params.dcLabel (pressTurn b level now s).cfg b) (pressTurn b level now s) = _ ↔ _
    rw [requestPreset_eq_refused, hc, presetOutOfRange_congr hc hp]
    exact ⟨fun e => ⟨rfl, e⟩, And.right⟩

/-- What a button's turn keeps for the turn after it: the parameters, the list, the other detector. -/
theorem buttonStep_keeps {b : Button} {level : Bool} {now : Nat} {s t : State}
    (h : buttonStep b level now s = .next t) :
    t.cfg = s.cfg ∧ t.sel.presets = s.sel.presets ∧ ∀ c, c ≠ b → State.btn t c = State.btn s c := by
  have hp : (pressTurn b level now s).cfg = s.cfg ∧ (pressTurn b level now s).sel.presets = s.sel.presets ∧
      ∀ c, c ≠ b → State.btn (pressTurn b level now s) c = State.btn s c := by
    refine ⟨by simp [pressTurn, pressReaction_eq], by simp [pressTurn, pressReaction_eq], ?_⟩
    intro c hc
    rw [← btn_setBtn_other s b c (upd level now (State.btn s b)).btn hc]
    unfold pressTurn; rw [pressReaction_eq]; cases c <;> rfl
  rcases buttonStep_eq_next h with rfl | ⟨-, -, hs⟩
  · exact hp
  · rcases select_eq_next hs with ⟨-, rfl⟩ | ⟨i, u, -, rfl | ⟨r, rfl⟩, rfl⟩
    · exact hp
    · exact ⟨hp.1, hp.2.1, fun c hc => by rw [← hp.2.2 c hc]; cases c <;> rfl⟩
    · exact ⟨hp.1, hp.2.1, fun c hc => by rw [← hp.2.2 c hc]; cases c <;> rfl⟩

/-- What a seek step can do: nothing without a height, else one drive, with the target cleared on arrival. -/
theorem seekStep_cases (g : Raw) (s : State) :
    (s.hc.cur = none ∧ seekStep g s = s) ∨
    ∃ c, s.hc.cur = some c ∧
      (((c.toNat : Int) - g.toInt < -5 ∧ seekStep g s = drive .up s) ∨
       (5 < (c.toNat : Int) - g.toInt ∧ seekStep g s = drive .down s) ∨
       (-5 ≤ (c.toNat : Int) - g.toInt ∧ (c.toNat : Int) - g.toInt ≤ 5 ∧
         seekStep g s = writeTgt none (drive .stop s))) := by
  unfold seekStep
  cases h : s.hc.cur with
  | none => exact .inl ⟨rfl, rfl⟩
  | some c =>
    refine .inr ⟨c, rfl, ?_⟩
    by_cases h1 : (c.toNat : Int) - g.toInt < -5
    · exact .inl ⟨h1, if_pos h1⟩
    · by_cases h2 : 5 < (c.toNat : Int) - g.toInt
      · exact .inr (.inl ⟨h2, (if_neg h1).trans (if_pos h2)⟩)
      · exact .inr (.inr ⟨by omega, by omega, (if_neg h1).trans (if_neg h2)⟩)

/-- What a `TICK` that answers a next state has done: the queue is received, then the seek step ran, or the two
buttons' turns. -/
theorem execTick_eq_next {now : Nat} {upN downN : Bool} {s t : State} (h : execTick now upN downN s = .next t) :
    s.boot = .running ∧ clockOk now s ∧
      ((∃ g, s.hc.tgt = some g ∧ t = seekStep g (receive { s with lastNow := now })) ∨
       (s.hc.tgt = none ∧ ∃ u, buttonStep .up (!upN) now (receive { s with lastNow := now }) = .next u ∧
         buttonStep .down (!downN) now u = .next t)) := by
  unfold execTick at h
  split at h
  · simp at h
  · simp at h
  · rename_i hb
    obtain ⟨hc, h⟩ := atTime_eq_next.1 h
    refine ⟨hb, hc, ?_⟩
    unfold tickBody actPhase at h
    split at h
    · rename_i g hg
      simp only [Host.Outcome.next.injEq] at h
      rw [receive_eq] at hg
      exact .inl ⟨g, hg, h.symm⟩
    · rename_i hg
      rw [receive_eq] at hg
      exact .inr ⟨hg, andThen_eq_next.1 h⟩

/-- An idle step is refused for a double-click's preset out of range only, the turns' order not mattering for it. -/
theorem idleStep_eq_refused {now : Nat} {up down : Bool} {s : State} {r : Refusal} :
    idleStep now up down s = .refused r ↔
      (s.cfg.selAttached = true ∧
        (((upd up now s.btnUp).dclick = true ∧ presetOutOfRange s.cfg.dcLabelUp s) ∨
         ((upd down now s.btnDown).dclick = true ∧ presetOutOfRange s.cfg.dcLabelDown s))) ∧
      r = .targetOutOfRange := by
  rw [idleStep, andThen_eq_refused]
  have second : ∀ u, buttonStep .up up now s = .next u →
      (buttonStep .down down now u = .refused r ↔ (upd down now s.btnDown).dclick = true ∧ s.cfg.selAttached = true ∧
        presetOutOfRange s.cfg.dcLabelDown s ∧ r = .targetOutOfRange) := by
    intro u hu
    obtain ⟨hc, hl, hb⟩ := buttonStep_keeps hu
    rw [buttonStep_eq_refused, hb .down nofun, presetOutOfRange_congr hc hl, hc]; rfl
  constructor
  · rintro (h | ⟨u, hu, h⟩)
    · obtain ⟨hd, ha, hp, hr⟩ := buttonStep_eq_refused.1 h
      exact ⟨⟨ha, .inl ⟨hd, hp⟩⟩, hr⟩
    · obtain ⟨hd, ha, hp, hr⟩ := (second u hu).1 h
      exact ⟨⟨ha, .inr ⟨hd, hp⟩⟩, hr⟩
  · rintro ⟨⟨ha, ⟨hd, hp⟩ | ⟨hd, hp⟩⟩, hr⟩
    · exact .inl (buttonStep_eq_refused.2 ⟨hd, ha, hp, hr⟩)
    · cases hu : buttonStep .up up now s with
      | next u => exact .inr ⟨u, rfl, (second u hu).2 ⟨hd, ha, hp, hr⟩⟩
      | fault f => exact nomatch f
      | refused q => exact .inl (congrArg _ ((buttonStep_eq_refused.1 hu).2.2.2.trans hr.symm))

/-- The body of `TICK` is refused for a double-click's preset out of range only. -/
theorem tickBody_eq_refused {now : Nat} {upN downN : Bool} {s : State} {r : Refusal} :
    tickBody now upN downN s = .refused r ↔ tickOutOfRange now upN downN s ∧ r = .targetOutOfRange := by
  have e : ∀ l, presetOutOfRange l (receive s) ↔ presetOutOfRange l s := fun l =>
    presetOutOfRange_congr (by rw [receive_eq]) (by rw [receive_eq]) l
  have et : (receive s).hc.tgt = s.hc.tgt := by rw [receive_eq]
  have ec : (receive s).cfg = s.cfg := by rw [receive_eq]
  have eu : (receive s).btnUp = s.btnUp := by rw [receive_eq]
  have ed : (receive s).btnDown = s.btnDown := by rw [receive_eq]
  unfold tickBody actPhase tickOutOfRange
  rw [et]
  cases s.hc.tgt with
  | some g => simp
  | none =>
    dsimp only
    rw [idleStep_eq_refused, ec, eu, ed, e, e]
    simp [pressedLevel]

/-- What holds after the receive phase and is kept by every update `TICK` is made of holds after `TICK`. -/
theorem tick_keeps {P : State → Prop} {now : Nat} {upN downN : Bool} {s t : State}
    (h : execTick now upN downN s = .next t)
    (start : P (receive { s with lastNow := now }))
    (onDrive : ∀ d u, P u → P (drive d u))
    (onTarget : ∀ r u, P u → P (writeTgt r u))
    (onNotify : ∀ u, P u → P (heightChanged u))
    (onSelect : ∀ l i u, lookup l u.sel.presets = some i → P u → P (emit (.pubOpt l) (writeIdx i u)))
    (onDetector : ∀ b l u, P u → P (State.setBtn u b (upd l now (State.btn u b)).btn)) : P t := by
  have turn : ∀ b l u v, P u → buttonStep b l now u = .next v → P v := by
    intro b l u v hu hv
    have hp : P (pressTurn b l now u) := by
      have h1 := onDetector b l u hu
      unfold pressTurn pressReaction notifyManual
      split
      · split
        · exact onNotify _ (onDrive _ _ h1)
        · exact onDrive _ _ h1
      · split
        · exact onNotify _ (onDrive _ _ h1)
        · exact onDrive _ _ h1
      · exact h1
    rcases buttonStep_eq_next hv with rfl | ⟨-, -, hs⟩
    · exact hp
    · rcases select_eq_next hs with ⟨-, rfl⟩ | ⟨i, w, hl, hw, rfl⟩
      · exact hp
      · rcases hw with rfl | ⟨r, rfl⟩
        · exact onSelect _ _ _ hl hp
        · exact onSelect _ _ _ hl (onTarget _ _ hp)
  obtain ⟨-, -, ⟨g, -, rfl⟩ | ⟨-, u, hu, ht⟩⟩ := execTick_eq_next h
  · rcases seekStep_cases g (receive { s with lastNow := now }) with ⟨-, e⟩ | ⟨c, -, ⟨-, e⟩ | ⟨-, e⟩ | ⟨-, -, e⟩⟩
    · rw [e]; exact start
    · rw [e]; exact onDrive _ _ start
    · rw [e]; exact onDrive _ _ start
    · rw [e]; exact onTarget _ _ (onDrive _ _ start)
  · exact turn _ _ _ _ (turn _ _ _ _ start hu) ht

end Sys2Proof.Machine
end

