-- ==== Sys2Proof/Laws/Steps.lean ====
section
/-! SUPPORT. What each operation has done when it answers a next state, and what a step has done. -/

namespace Sys2Proof.Machine

theorem execReset_eq_next {now : Nat} {s t : State} (h : execReset now s = .next t) :
    now + 1000 < 2 ^ s.cfg.timeBits ∧ t = constructed now s := by
  unfold execReset at h
  split at h
  · rename_i e
    simp only [Host.Outcome.next.injEq] at h
    exact ⟨(timeFits_iff _ bootLockoutMs now).1 e, h.symm⟩
  · simp at h

theorem execInit_eq_next {s t : State} (h : execInit s = .next t) :
    s.boot = .configuring ∧ t = startupPulse { s with boot := .running } := by
  unfold execInit at h
  split at h
  · simp at h
  · rename_i e
    simp only [Host.Outcome.next.injEq] at h
    exact ⟨e, h.symm⟩
  · simp at h

theorem execRxb_eq_next {b : Byte} {s t : State} (h : execRxb b s = .next t) :
    s.boot ≠ .unbuilt ∧ t = { s with rxq := s.rxq ++ [b] } := by
  obtain ⟨hb, h⟩ := afterReset_eq_next.1 h
  simp only [Host.Outcome.next.injEq] at h
  exact ⟨hb, h.symm⟩

theorem execSlowtick_eq_next {s t : State} (h : execSlowtick s = .next t) : s.boot ≠ .unbuilt ∧ t = report s := by
  obtain ⟨hb, h⟩ := afterReset_eq_next.1 h
  simp only [Host.Outcome.next.injEq] at h
  exact ⟨hb, h.symm⟩

/-- A report does nothing, or publishes a height other than the last one reported. -/
theorem report_cases (s : State) :
    report s = s ∨
      ∃ c, s.hc.cur = some c ∧ s.hc.rep ≠ some c ∧
        report s = { s with
          hc := { s.hc with rep := some c }
          out := s.out ++ [.pubRaw c] ++ [.pubInch (rawToH s.cfg (Byte.count c))] } := by
  unfold report
  cases hc : s.hc.cur with
  | none => exact .inl rfl
  | some c =>
    dsimp only
    split
    · exact .inl rfl
    · rename_i hr; exact .inr ⟨c, rfl, hr, by rw [← hc]; rfl⟩

theorem execSett_eq_next {h : Height} {s t : State} (e : execSett h s = .next t) :
    s.boot ≠ .unbuilt ∧ ∃ r, t = writeTgt r s := by
  obtain ⟨hb, e⟩ := afterReset_eq_next.1 e
  refine ⟨hb, ?_⟩
  rcases setTarget_eq_next.1 e with ⟨-, -, e⟩ | ⟨-, e⟩
  · exact ⟨_, e⟩
  · exact ⟨_, e⟩

theorem execFeed_eq_next {b : Byte} {s t : State} (h : execFeed b s = .next t) :
    s.boot ≠ .unbuilt ∧
      t = { s with dec := (feed b s.dec).1, out := s.out ++ ((feed b s.dec).2.toList.map Event.height) } := by
  obtain ⟨hb, h⟩ := afterReset_eq_next.1 h
  simp only [Host.Outcome.next.injEq] at h
  refine ⟨hb, h.symm.trans ?_⟩
  unfold feedLeaf emitHeight
  cases (feed b s.dec).2 <;> simp [emit]

theorem execUpd_eq_next {now : Nat} {level : Bool} {det : Button} {s t : State}
    (h : execUpd now level det s = .next t) :
    s.boot ≠ .unbuilt ∧ clockOk now s ∧
      t = { State.setBtn s det (upd level now (State.btn s det)).btn with
        lastNow := now
        out := s.out ++ ((upd level now (State.btn s det)).press.toList.map (Event.press det)) ++
          (if (upd level now (State.btn s det)).dclick then [Event.dclick det] else []) } := by
  obtain ⟨hb, h⟩ := afterReset_eq_next.1 h
  obtain ⟨hc, h⟩ := atTime_eq_next.1 h
  simp only [Host.Outcome.next.injEq] at h
  refine ⟨hb, hc, h.symm.trans ?_⟩
  have e : State.btn { s with lastNow := now } det = State.btn s det := by cases det <;> rfl
  unfold updLeaf
  rw [e]
  generalize upd level now (State.btn s det) = r
  rcases r with ⟨b, p, d⟩
  cases p <;> cases d <;> cases det <;> simp [emitDclick, emitPress, emit]

theorem execSel_eq_next {l : Label} {s t : State} (h : execSel l s = .next t) :
    s.boot ≠ .unbuilt ∧ select l s = .next t := afterReset_eq_next.1 h

theorem execHchg_eq_next {s t : State} (h : execHchg s = .next t) : s.boot ≠ .unbuilt ∧ t = heightChanged s := by
  obtain ⟨hb, h⟩ := afterReset_eq_next.1 h
  simp only [Host.Outcome.next.injEq] at h
  exact ⟨hb, h.symm⟩

theorem execAddp_eq_next {l : Label} {h : Height} {s t : State} (e : execAddp l h s = .next t) :
    s.boot = .configuring ∧ t = appendPreset l h s := by
  unfold execAddp at e
  split at e
  · simp at e
  · rename_i hb
    simp only [Host.Outcome.next.injEq] at e
    exact ⟨hb, e.symm⟩
  · simp at e

/-! ## Steps -/

theorem step_none {s : State} (h : s.cmds = []) : step s = .next s := by
  simp only [step, takeRequest, h]

/-- A step with a request waiting: the operation it asks for, on the state without it, or the refusal of the request. -/
theorem step_request {s : State} {q : Request} {rest : List Request} (h : s.cmds = q :: rest) :
    step s = match readRequest s.cfg.timeBits q with
      | .error r => .refused r
      | .ok i => exec i { s with cmds := rest } := by
  cases e : readRequest s.cfg.timeBits q <;> simp only [step, takeRequest, h, e]

/-- What a request is read as. -/
theorem readRequest_eq_ok {bits : Nat} {q : Request} {i : Instr} :
    readRequest bits q = .ok i ↔ asksFor bits q i := by
  unfold asksFor
  cases q with
  | op j => simp [readRequest]
  | word w =>
    show readWord bits w = .ok i ↔ _
    unfold readWord
    by_cases hb : bits = wordTimeBits
    · subst hb
      cases h : decode w <;> simp [wordTimeBits, h]
    · rw [if_neg hb]
      refine ⟨nofun, ?_⟩
      rintro (e | ⟨_, -, e, -⟩)
      · exact absurd e nofun
      · exact absurd e hb

/-- A step that answers a next state found no request, or executed the operation the oldest one asks for. -/
theorem step_eq_next {s t : State} (h : step s = .next t) :
    (s.cmds = [] ∧ t = s) ∨
      ∃ q rest i, s.cmds = q :: rest ∧ asksFor s.cfg.timeBits q i ∧ exec i { s with cmds := rest } = .next t := by
  cases hc : s.cmds with
  | nil =>
    rw [step_none hc] at h
    simp only [Host.Outcome.next.injEq] at h
    exact .inl ⟨rfl, h.symm⟩
  | cons q rest =>
    rw [step_request hc] at h
    split at h
    · simp at h
    · rename_i i hd; exact .inr ⟨q, rest, i, rfl, readRequest_eq_ok.1 hd, h⟩

end Sys2Proof.Machine
end

