-- ==== Sys2Proof/Laws/Commands.lean ====
section
/-! SUPPORT. An operation neither reads nor writes the environment's waiting requests (00_scope.md R14): executed
with other requests waiting it answers the same, up to those. -/

namespace Sys2Proof.Machine

/-- An answer with other requests waiting. -/
def withCmds (r : List Request) : Result → Result
  | .next s => .next { s with cmds := r }
  | .fault f => .fault f
  | .refused f => .refused f

theorem andThen_withCmds (o : Result) (f g : State → Result) (r : List Request)
    (h : ∀ s, g { s with cmds := r } = withCmds r (f s)) :
    andThen (withCmds r o) g = withCmds r (andThen o f) := by
  cases o <;> simp [andThen, withCmds, h]

theorem receive_cmds (s : State) (r : List Request) :
    receive { s with cmds := r } = { receive s with cmds := r } := by
  rw [receive_eq, receive_eq]

theorem setTarget_cmds (h : Height) (s : State) (r : List Request) :
    setTarget h { s with cmds := r } = withCmds r (setTarget h s) := by
  unfold setTarget; dsimp only; split
  · split <;> rfl
  · rfl

theorem forwardPreset_cmds (i : Nat) (s : State) (r : List Request) :
    forwardPreset i { s with cmds := r } = withCmds r (forwardPreset i s) := by
  unfold forwardPreset presetHeight; dsimp only
  split
  · rfl
  · split
    · exact setTarget_cmds _ _ _
    · rfl

theorem select_cmds (l : Label) (s : State) (r : List Request) :
    select l { s with cmds := r } = withCmds r (select l s) := by
  unfold select; dsimp only
  split
  · rfl
  · rw [forwardPreset_cmds]; exact andThen_withCmds _ _ _ _ (fun _ => rfl)

theorem buttonStep_cmds (b : Button) (l : Bool) (now : Nat) (s : State) (r : List Request) :
    buttonStep b l now { s with cmds := r } = withCmds r (buttonStep b l now s) := by
  have e : State.btn { s with cmds := r } b = State.btn s b := by cases b <;> rfl
  unfold buttonStep dclickReaction; dsimp only; rw [e]
  have e2 : pressReaction b (upd l now (s.btn b)).press
      (State.setBtn { s with cmds := r } b (upd l now (s.btn b)).btn) =
      { pressReaction b (upd l now (s.btn b)).press (State.setBtn s b (upd l now (s.btn b)).btn) with
        cmds := r } := by
    cases b <;> rw [pressReaction_eq, pressReaction_eq] <;> rfl
  rw [e2]
  split
  · unfold requestPreset; dsimp only; split
    · exact select_cmds _ _ _
    · rfl
  · rfl

theorem seekStep_cmds (g : Raw) (s : State) (r : List Request) :
    seekStep g { s with cmds := r } = { seekStep g s with cmds := r } := by
  unfold seekStep; dsimp only
  split
  · rfl
  · split
    · rfl
    · split <;> rfl

theorem afterReset_cmds (s : State) (r : List Request)
    (k k' : Result) (h : k' = withCmds r k) :
    afterReset { s with cmds := r } k' = withCmds r (afterReset s k) := by
  subst h; unfold afterReset; dsimp only; split <;> rfl

theorem atTime_cmds (now : Nat) (s : State) (r : List Request)
    (k k' : State → Result) (h : ∀ s, k' { s with cmds := r } = withCmds r (k s)) :
    atTime now { s with cmds := r } k' = withCmds r (atTime now s k) := by
  unfold atTime; dsimp only
  split
  · split
    · exact h { s with lastNow := now }
    · rfl
  · rfl

/-- Every operation is blind to the waiting requests. -/
theorem exec_cmds (i : Instr) (s : State) (r : List Request) :
    exec i { s with cmds := r } = withCmds r (exec i s) := by
  cases i with
  | reset now => simp only [exec, execReset]; split <;> rfl
  | init => simp only [exec, execInit]; split <;> rfl
  | rxb b => exact afterReset_cmds _ _ _ _ rfl
  | tick now u d =>
    simp only [exec, execTick]; split
    · rfl
    · rfl
    · refine atTime_cmds _ _ _ _ _ ?_
      intro s
      unfold tickBody actPhase; rw [receive_cmds]; dsimp only
      split
      · rw [seekStep_cmds]; rfl
      · unfold idleStep; rw [buttonStep_cmds]; exact andThen_withCmds _ _ _ _ (fun _ => buttonStep_cmds _ _ _ _ _)
  | slowtick =>
    refine afterReset_cmds _ _ _ _ ?_
    unfold report; dsimp only; split
    · rfl
    · split <;> rfl
  | sett h => exact afterReset_cmds _ _ _ _ (setTarget_cmds _ _ _)
  | feed b =>
    refine afterReset_cmds _ _ _ _ ?_
    unfold feedLeaf emitHeight; dsimp only; split <;> rfl
  | upd now l d =>
    refine afterReset_cmds _ _ _ _ (atTime_cmds _ _ _ _ _ ?_)
    intro s
    have e : State.btn { s with cmds := r } d = State.btn s d := by cases d <;> rfl
    unfold updLeaf; dsimp only; rw [e]
    generalize upd l now (s.btn d) = x
    rcases x with ⟨b, p, c⟩
    cases p <;> cases c <;> cases d <;> rfl
  | sel l => exact afterReset_cmds _ _ _ _ (select_cmds _ _ _)
  | hchg => exact afterReset_cmds _ _ _ _ rfl
  | addp l h => simp only [exec, execAddp]; split <;> rfl

end Sys2Proof.Machine
end

