-- ==== Sys2Proof/Laws/Log.lean ====
section
/-! SUPPORT. The projections of the event log: each one of a joined log is the joined projections, and of one event
what the event carries. -/

namespace Sys2Proof.Machine

@[simp] theorem drives_append (a b : List Event) : drives (a ++ b) = drives a ++ drives b := List.filterMap_append
@[simp] theorem rawReports_append (a b : List Event) : rawReports (a ++ b) = rawReports a ++ rawReports b :=
  List.filterMap_append
@[simp] theorem shownLabels_append (a b : List Event) : shownLabels (a ++ b) = shownLabels a ++ shownLabels b :=
  List.filterMap_append
@[simp] theorem pressEvents_append (det : Button) (a b : List Event) :
    pressEvents det (a ++ b) = pressEvents det a ++ pressEvents det b := List.filterMap_append

@[simp] theorem drives_nil : drives [] = [] := rfl
@[simp] theorem rawReports_nil : rawReports [] = [] := rfl
@[simp] theorem shownLabels_nil : shownLabels [] = [] := rfl
@[simp] theorem pressEvents_nil (det : Button) : pressEvents det [] = [] := rfl

/-- The drives of one event. -/
theorem drives_single (e : Event) : drives [e] = (match e with | .drv d => [d] | _ => []) := by cases e <;> rfl
/-- The published raw heights of one event. -/
theorem rawReports_single (e : Event) : rawReports [e] = (match e with | .pubRaw r => [r] | _ => []) := by
  cases e <;> rfl
/-- The published labels of one event. -/
theorem shownLabels_single (e : Event) : shownLabels [e] = (match e with | .pubOpt l => [l] | _ => []) := by
  cases e <;> rfl
/-- The press events of one event. -/
theorem pressEvents_single (det : Button) (e : Event) :
    pressEvents det [e] = (match e with | .press d p => if d = det then [p] else [] | _ => []) := by
  cases e with
  | press d p => by_cases h : d = det <;> simp [pressEvents, h]
  | _ => rfl

/-- A log whose last event is a drive was last driven there. -/
theorem lastDriven_drv (out : List Event) (d : Dir) : lastDriven (out ++ [.drv d]) = d := by
  simp [lastDriven, drives_single]

/-- Events that drive nothing leave the last driven direction. -/
theorem lastDriven_append {out es : List Event} (h : drives es = []) : lastDriven (out ++ es) = lastDriven out := by
  simp [lastDriven, h]

end Sys2Proof.Machine
end

