-- ==== Sys2Proof/Laws/Words.lean ====
section
/-! SUPPORT. The fields of each command-word format of 30_encoding.md R84, read back from the word, and the masked
bits of each format. -/

namespace Sys2Proof

open BitVec

theorem formatN_op (op : BitVec 4) : opField (formatN op) = op := extractLsb'_append_eq_left (b := 0#44)
theorem formatN_zeros (op : BitVec 4) : (formatN op).extractLsb' 0 44 = 0#44 :=
  extractLsb'_append_eq_right (a := op)

theorem formatB_op (op : BitVec 4) (b : BitVec 8) : opField (formatB op b) = op :=
  (extractLsb'_append_eq_of_le (xhi := op ++ 0#36) (xlo := b) (by omega)).trans extractLsb'_append_eq_left
theorem formatB_zeros (op : BitVec 4) (b : BitVec 8) : (formatB op b).extractLsb' 8 36 = 0#36 :=
  (extractLsb'_append_eq_of_le (xhi := op ++ 0#36) (xlo := b) (by omega)).trans extractLsb'_append_eq_right
theorem formatB_byte (op : BitVec 4) (b : BitVec 8) : byteField (formatB op b) = b :=
  extractLsb'_append_eq_right (a := op ++ 0#36)

theorem formatT_op (op : BitVec 4) (v : BitVec 32) : opField (formatT op v) = op :=
  (extractLsb'_append_eq_of_le (xhi := op ++ 0#12) (xlo := v) (by omega)).trans extractLsb'_append_eq_left
theorem formatT_zeros (op : BitVec 4) (v : BitVec 32) : (formatT op v).extractLsb' 32 12 = 0#12 :=
  (extractLsb'_append_eq_of_le (xhi := op ++ 0#12) (xlo := v) (by omega)).trans extractLsb'_append_eq_right
theorem formatT_word (op : BitVec 4) (v : BitVec 32) : wordField (formatT op v) = v :=
  extractLsb'_append_eq_right (a := op ++ 0#12)

theorem formatL_op (op : BitVec 4) (l : Label) (h : Height) : opField (formatL op l h) = op :=
  ((extractLsb'_append_eq_of_le (xhi := op ++ 0#4 ++ l) (xlo := h) (by omega)).trans
    (extractLsb'_append_eq_of_le (xhi := op ++ 0#4) (xlo := l) (by omega))).trans extractLsb'_append_eq_left
theorem formatL_zeros (op : BitVec 4) (l : Label) (h : Height) : (formatL op l h).extractLsb' 40 4 = 0#4 :=
  ((extractLsb'_append_eq_of_le (xhi := op ++ 0#4 ++ l) (xlo := h) (by omega)).trans
    (extractLsb'_append_eq_of_le (xhi := op ++ 0#4) (xlo := l) (by omega))).trans extractLsb'_append_eq_right
theorem formatL_label (op : BitVec 4) (l : Label) (h : Height) : labelField (formatL op l h) = l :=
  (extractLsb'_append_eq_of_le (xhi := op ++ 0#4 ++ l) (xlo := h) (by omega)).trans extractLsb'_append_eq_right
theorem formatL_word (op : BitVec 4) (l : Label) (h : Height) : wordField (formatL op l h) = h :=
  extractLsb'_append_eq_right (a := op ++ 0#4 ++ l)

theorem formatP_op (op : BitVec 4) (p q : Bool) (now : BitVec 32) : opField (formatP op p q now) = op :=
  (((extractLsb'_append_eq_of_le (xhi := op ++ 0#10 ++ ofBool p ++ ofBool q) (xlo := now) (by omega)).trans
    (extractLsb'_append_eq_of_le (xhi := op ++ 0#10 ++ ofBool p) (xlo := ofBool q) (by omega))).trans
    (extractLsb'_append_eq_of_le (xhi := op ++ 0#10) (xlo := ofBool p) (by omega))).trans
    extractLsb'_append_eq_left
theorem formatP_zeros (op : BitVec 4) (p q : Bool) (now : BitVec 32) :
    (formatP op p q now).extractLsb' 34 10 = 0#10 :=
  (((extractLsb'_append_eq_of_le (xhi := op ++ 0#10 ++ ofBool p ++ ofBool q) (xlo := now) (by omega)).trans
    (extractLsb'_append_eq_of_le (xhi := op ++ 0#10 ++ ofBool p) (xlo := ofBool q) (by omega))).trans
    (extractLsb'_append_eq_of_le (xhi := op ++ 0#10) (xlo := ofBool p) (by omega))).trans
    extractLsb'_append_eq_right
theorem formatP_word (op : BitVec 4) (p q : Bool) (now : BitVec 32) : wordField (formatP op p q now) = now :=
  extractLsb'_append_eq_right (a := op ++ 0#10 ++ ofBool p ++ ofBool q)
theorem formatP_low (op : BitVec 4) (p q : Bool) (now : BitVec 32) : lowPinField (formatP op p q now) = q := by
  have h : (formatP op p q now).getLsbD 32 = (op ++ 0#10 ++ ofBool p ++ ofBool q ++ now).getLsbD 32 := rfl
  unfold lowPinField
  rw [h, getLsbD_append, getLsbD_append]
  simp
theorem formatP_high (op : BitVec 4) (p q : Bool) (now : BitVec 32) : highPinField (formatP op p q now) = p := by
  have h : (formatP op p q now).getLsbD 33 = (op ++ 0#10 ++ ofBool p ++ ofBool q ++ now).getLsbD 33 := rfl
  unfold highPinField
  rw [h, getLsbD_append, getLsbD_append, getLsbD_append]
  simp

/-- A time that fits the word's field is read back from it. -/
theorem timeWord_toNat {now : Nat} (h : now < 2 ^ Machine.wordTimeBits) : (timeWord now).toNat = now :=
  Nat.mod_eq_of_lt h

/-- The field of a time is the field of the integer it is read as. -/
theorem timeWord_timeField (w : Command) : timeWord (timeField w) = wordField w := by
  simp [timeWord, timeField]

/-- The integer a word's field is read as fits the field. -/
theorem timeField_lt (w : Command) : timeField w < 2 ^ Machine.wordTimeBits := (wordField w).isLt

/-- A detector instance is read back from its bit. -/
theorem ofBit_bit (b : Button) : Button.ofBit b.bit = b := by cases b <;> rfl

/-- A detector bit is read back from its instance. -/
theorem bit_ofBit (b : Bool) : (Button.ofBit b).bit = b := by cases b <;> rfl

/-! ## Masked words -/

/-- Masking away the low part of a word keeps the high part. -/
theorem append_mask_low {n m : Nat} (x : BitVec n) (y : BitVec m) :
    (x ++ y) &&& (allOnes n ++ 0#m) = x ++ 0#m := by
  rw [and_append, and_allOnes, and_zero]

theorem formatB_masked (op : BitVec 4) (b : BitVec 8) :
    formatB op b &&& 0xFFFFFFFFFF00#48 = (op ++ 0#36 ++ 0#8 : BitVec (4 + 36 + 8)) :=
  append_mask_low (op ++ 0#36) b
theorem formatT_masked (op : BitVec 4) (v : BitVec 32) :
    formatT op v &&& 0xFFFF00000000#48 = (op ++ 0#12 ++ 0#32 : BitVec (4 + 12 + 32)) :=
  append_mask_low (op ++ 0#12) v
theorem formatP_masked (op : BitVec 4) (p q : Bool) (now : BitVec 32) :
    formatP op p q now &&& 0xFFFC00000000#48 =
      (op ++ 0#10 ++ 0#1 ++ 0#1 ++ 0#32 : BitVec (4 + 10 + 1 + 1 + 32)) := by
  have h : (op ++ 0#10 ++ ofBool p ++ ofBool q ++ now) &&& (allOnes (4 + 10) ++ 0#1 ++ 0#1 ++ 0#32) =
      op ++ 0#10 ++ 0#1 ++ 0#1 ++ 0#32 := by
    rw [and_append, and_append, and_append, and_allOnes, and_zero, and_zero, and_zero]
  exact h
theorem formatL_masked (op : BitVec 4) (l : Label) (h : Height) :
    formatL op l h &&& 0xFF0000000000#48 = (op ++ 0#4 ++ 0#8 ++ 0#32 : BitVec (4 + 4 + 8 + 32)) := by
  have e : (op ++ 0#4 ++ l ++ h) &&& (allOnes (4 + 4) ++ 0#8 ++ 0#32) = op ++ 0#4 ++ 0#8 ++ 0#32 := by
    rw [and_append, and_append, and_allOnes, and_zero, and_zero]
  exact e

end Sys2Proof
end

