-- ==== Sys2Proof/Laws/PerInstr.lean ====
section
/-! SUPPORT. Per operation: the encoder's word lies in the operation's row of the opcode map (30_encoding.md R86). -/

namespace Sys2Proof.Laws.EncodeMatchesRow

/-- The word of `i` has the `match` bits of its row under the row's `mask`. -/
def Statement (i : Instr) : Prop := encode i &&& i.maskBits = i.matchBits

theorem reset (now : Nat) : Statement (.reset now) := formatT_masked 0x1#4 (timeWord now)
theorem init : Statement .init := by unfold Statement; decide
theorem rxb (byte : Byte) : Statement (.rxb byte) := formatB_masked 0x3#4 byte
theorem tick (now : Nat) (upN downN : Bool) : Statement (.tick now upN downN) :=
  formatP_masked 0x4#4 downN upN (timeWord now)
theorem slowtick : Statement .slowtick := by unfold Statement; decide
theorem sett (h : Height) : Statement (.sett h) := formatT_masked 0x6#4 h
theorem feed (byte : Byte) : Statement (.feed byte) := formatB_masked 0x7#4 byte
theorem upd (now : Nat) (level : Bool) (det : Button) : Statement (.upd now level det) :=
  formatP_masked 0x8#4 det.bit level (timeWord now)
theorem sel (label : Label) : Statement (.sel label) := formatB_masked 0x9#4 label
theorem hchg : Statement .hchg := by unfold Statement; decide
theorem addp (label : Label) (h : Height) : Statement (.addp label h) := formatL_masked 0xB#4 label h

end Sys2Proof.Laws.EncodeMatchesRow
end

