-- ==== Sys2Proof/Laws/WellFormed.lean ====
section
/-! SUPPORT. The shape of a trace (70_reset_and_hazards.md R256), one equation per operation. -/

namespace Sys2Proof

open Machine

variable (bits : Nat) (inited : Bool) (last : Nat) (rest : List Instr)

theorem traceTail_nil : traceTailWellFormed bits inited last [] = true := rfl
theorem traceTail_reset (now : Nat) : traceTailWellFormed bits inited last (.reset now :: rest) =
    (timeFits bits bootLockoutMs now && traceTailWellFormed bits false now rest) := rfl
theorem traceTail_init : traceTailWellFormed bits inited last (.init :: rest) =
    (!inited && traceTailWellFormed bits true last rest) := rfl
theorem traceTail_rxb (b : Byte) : traceTailWellFormed bits inited last (.rxb b :: rest) =
    traceTailWellFormed bits inited last rest := rfl
theorem traceTail_tick (now : Nat) (u d : Bool) : traceTailWellFormed bits inited last (.tick now u d :: rest) =
    (timeFits bits lockoutMs now && (inited && decide (last ≤ now) && traceTailWellFormed bits inited now rest)) :=
  rfl
theorem traceTail_slowtick : traceTailWellFormed bits inited last (.slowtick :: rest) =
    traceTailWellFormed bits inited last rest := rfl
theorem traceTail_sett (h : Height) : traceTailWellFormed bits inited last (.sett h :: rest) =
    traceTailWellFormed bits inited last rest := rfl
theorem traceTail_feed (b : Byte) : traceTailWellFormed bits inited last (.feed b :: rest) =
    traceTailWellFormed bits inited last rest := rfl
theorem traceTail_upd (now : Nat) (l : Bool) (d : Button) : traceTailWellFormed bits inited last (.upd now l d :: rest) =
    (timeFits bits lockoutMs now && (decide (last ≤ now) && traceTailWellFormed bits inited now rest)) :=
  rfl
theorem traceTail_sel (l : Label) : traceTailWellFormed bits inited last (.sel l :: rest) =
    traceTailWellFormed bits inited last rest := rfl
theorem traceTail_hchg : traceTailWellFormed bits inited last (.hchg :: rest) =
    traceTailWellFormed bits inited last rest := rfl
theorem traceTail_addp (l : Label) (h : Height) : traceTailWellFormed bits inited last (.addp l h :: rest) =
    (!inited && traceTailWellFormed bits inited last rest) := rfl

/-- A trace that starts with `RESET`. -/
theorem trace_reset (now : Nat) : traceWellFormed bits (.reset now :: rest) =
    (timeFits bits bootLockoutMs now && traceTailWellFormed bits false now rest) := rfl

end Sys2Proof
end

