-- ==== Sys2Proof/Tests/Slice0.lean ====
section
/-! SUPPORT. Tests, their expected values from spec/95_test_vectors.md or worked by hand from the rules named; and for
each obligation with hypotheses a witness that meets them (`witness_<obligation>`, one for each clause). -/

namespace Sys2Proof.Tests

open Sys2Proof Sys2Proof.Machine

/-! ## Small states -/

/-- The parameters of the vectors (95_test_vectors.md, "Conventions"), the start-up pulse being 50 ms. -/
def cfg : Params :=
  { timeBits := 32, minRaw := 0#32, maxRaw := 255#32, minH := 0#32, inchScale := 1000, dcLabelUp := 1#8, dcLabelDown := 2#8,
    selAttached := true, startupPulseMs := 50#32, reportPeriodMs := 0 }

/-- After `RESET 0`, with the vectors' parameters. -/
def fresh : State := { State.reset with cfg := cfg }

/-- As `fresh`, after `INIT` but for its log. -/
def ready : State := { fresh with boot := .running }

/-- Before the first `RESET`. -/
def unbuilt : State := { fresh with boot := .unbuilt }

/-- `s` with a clock of `bits` bits (00_scope.md R8). -/
def clocked (bits : Nat) (s : State) : State := { s with cfg := { cfg with timeBits := bits } }

/-- `ready` with a height, a target and a last report. -/
def seeking (cur : Option Byte) (tgt : Option Raw) (rep : Option Byte) : State :=
  { ready with hc := { cur := cur, tgt := tgt, rep := rep, dir := .stop } }

/-- A detector written `rise/prev_rise/fall/prev_fall/level/disp/lockout`. -/
def mkBtn (rise prevRise fall prevFall : Nat) (level disp : Bool) (lockout : Nat) : Btn :=
  { rise := rise, prevRise := prevRise, fall := fall,
    prevFall := prevFall, level := level, disp := disp, lockout := lockout }

/-- `ready` with the two detectors and the latest time. -/
def withBtns (up down : Btn) (last : Nat) : State :=
  { ready with btnUp := up, btnDown := down, lastNow := last }

/-- One tap of a button, the second press due (V-B3 before its third step). -/
def tapped : Btn := mkBtn 2000 0 2100 0 false false 1000

/-- A button down since 2000 (V-B2). -/
def heldDown : Btn := mkBtn 2000 0 0 0 true false 1000

/-- A detector at reset. -/
def idleBtn : Btn := mkBtn 0 0 0 0 false false 1000

/-- The list of V-L1. -/
def presets : List Preset :=
  [{ label := 0#8, h := none }, { label := 1#8, h := some 11000#32 }, { label := 2#8, h := some 8000#32 },
   { label := 2#8, h := some 9000#32 }, { label := 3#8, h := some (BitVec.ofInt 32 (-500)) }]

/-- `ready` with the list of V-L1. -/
def withPresets : State := { ready with sel := { presets := presets, idx := 0 } }

/-- A double-click due on `UP` with a preset for its label (V-H12 before its last tick). -/
def aboutToSelect : State := { withPresets with btnUp := tapped, lastNow := 2200 }

/-- The state an operation leaves, if it answers one. -/
def after (i : Instr) (s : State) : State := (nextState (exec i s)).getD s

/-- The state a trace leaves, if it runs to its end. -/
def afterAll (trace : List Instr) (s : State) : State := (nextState (execAll trace s)).getD s

/-- An answer that is a next state is the one `nextState` reads. -/
theorem runs {o : Result} {d : State} (h : (nextState o).isSome = true) : o = .next ((nextState o).getD d) := by
  cases o <;> simp_all [nextState]

/-- The name of the refusal, if an operation is refused. -/
def refusal (o : Result) : Option Refusal :=
  match o with
  | .refused r => some r
  | _ => none

/-- The events an operation appends. -/
def events (i : Instr) (s : State) : List EventWord := ((after i s).out.drop s.out.length).map Event.word

/-! ## Well-formedness (60_exceptions.md R236, 70_reset_and_hazards.md R256) -/

theorem test_wf_reset_wrap : (Instr.reset 0xFFFFFC18).wellFormed 32 = false := by decide
theorem test_wf_reset_last_fit : (Instr.reset 0xFFFFFC17).wellFormed 32 = true := by decide
theorem test_wf_reset_other_width :
    ((Instr.reset 64536).wellFormed 16, (Instr.reset 64535).wellFormed 16, (Instr.reset 0xFFFFFC18).wellFormed 64) =
      (false, true, true) := by decide
theorem test_wf_tick_wrap : (Instr.tick 0xFFFFFC18 true true).wellFormed 32 = false := by decide
theorem test_wf_upd_wrap : (Instr.upd 0xFFFFFC18 true .up).wellFormed 32 = false := by decide
theorem test_wf_trace_boot_order : traceWellFormed 32
    [.reset 0, .rxb 1#8, .addp 1#8 5#32, .upd 3 true .up, .init, .tick 3 true true, .reset 1] = true := by decide
theorem test_wf_trace_without_reset : traceWellFormed 32 [.init] = false := by decide
theorem test_wf_trace_reset_wrap : traceWellFormed 32 [.reset 0xFFFFFC18] = false := by decide
theorem test_wf_trace_tick_before_init : traceWellFormed 32 [.reset 0, .tick 1 true true] = false := by decide
theorem test_wf_trace_second_init : traceWellFormed 32 [.reset 0, .init, .init] = false := by decide
theorem test_wf_trace_late_addp : traceWellFormed 32 [.reset 0, .init, .addp 1#8 5#32] = false := by decide
theorem test_wf_trace_tick_backwards :
    traceWellFormed 32 [.reset 0, .init, .tick 9 true true, .tick 8 true true] = false := by decide
theorem test_wf_trace_upd_before_reset_time : traceWellFormed 32 [.reset 9, .upd 8 true .up] = false := by decide

/-! ## Command words (V-E1, V-E2) -/

theorem test_decode_reset : decode 0x100000000064#48 = .ok (.reset 100) := rfl
theorem test_decode_init : decode 0x200000000000#48 = .ok .init := rfl
theorem test_decode_rxb : decode 0x30000000005A#48 = .ok (.rxb 0x5A#8) := rfl
theorem test_decode_tick_released : decode 0x4003000005DC#48 = .ok (.tick 1500 true true) := rfl
theorem test_decode_tick_up : decode 0x4002000007D0#48 = .ok (.tick 2000 false true) := rfl
theorem test_decode_tick_down : decode 0x4001000007D0#48 = .ok (.tick 2000 true false) := rfl
theorem test_decode_slowtick : decode 0x500000000000#48 = .ok .slowtick := rfl
theorem test_decode_sett : decode 0x600000002710#48 = .ok (.sett 10000#32) := rfl
theorem test_decode_sett_negative : decode 0x6000FFFFFC18#48 = .ok (.sett (BitVec.ofInt 32 (-1000))) := rfl
theorem test_decode_feed : decode 0x700000000064#48 = .ok (.feed 0x64#8) := rfl
theorem test_decode_upd : decode 0x8003000008FC#48 = .ok (.upd 2300 true .down) := rfl
theorem test_decode_upd_level : decode 0x8001000007D0#48 = .ok (.upd 2000 true .up) := rfl
theorem test_decode_sel : decode 0x900000000002#48 = .ok (.sel 2#8) := rfl
theorem test_decode_hchg : decode 0xA00000000000#48 = .ok .hchg := rfl
theorem test_decode_addp : decode 0xB00200001F40#48 = .ok (.addp 2#8 8000#32) := rfl
theorem test_decode_addp_full_label : decode 0xB0FF00000000#48 = .ok (.addp 255#8 0#32) := rfl

theorem test_invalid_opcode_zero : decode 0x000000000000#48 = .error .reservedOpcode := rfl
theorem test_invalid_opcode_c : decode 0xC00000000000#48 = .error .reservedOpcode := rfl
theorem test_invalid_opcode_f : decode 0xF00000000001#48 = .error .reservedOpcode := rfl
theorem test_invalid_init : decode 0x200000000001#48 = .error .mustBeZero := rfl
theorem test_invalid_rxb : decode 0x300000000164#48 = .error .mustBeZero := rfl
theorem test_invalid_tick : decode 0x400400000000#48 = .error .mustBeZero := rfl
theorem test_invalid_addp : decode 0xB10000000000#48 = .error .mustBeZero := rfl

theorem test_encode_upd : encode (.upd 2300 true .down) = 0x8003000008FC#48 := by decide
theorem test_table_word : decodeTableWord 48 0x4002000007D0 = some (.tick 2000 false true) := rfl
theorem test_encodable : ((Instr.reset 0xFFFFFFFF).encodable, (Instr.upd 0x100000000 true .up).encodable) =
    (true, false) := by decide
theorem test_fetch_word : (nextState (step (State.reset.withFetchWord 48 0x30000000005A))).map State.rxq =
    some [0x5A#8] := rfl

/-! ## Event words (V-E3), enumerations (R92), text (R94, R95) -/

theorem test_word_height : Event.word (.height 0x64#8) = 0x100000064#36 := by decide
theorem test_word_press : Event.word (.press .down false) = 0x200000002#36 := by decide
theorem test_word_dclick : Event.word (.dclick .down) = 0x300000002#36 := by decide
theorem test_word_drv : Event.word (.drv .down) = 0x400000002#36 := by decide
theorem test_word_delay : Event.word (.delay 50#32) = 0x500000032#36 := by decide
theorem test_word_raw : Event.word (.pubRaw 95#8) = 0x60000005F#36 := by decide
theorem test_word_inch : Event.word (.pubInch 9500) = 0x70000251C#36 := by decide
theorem test_word_inch_negative : Event.word (.pubInch (-1000)) = 0x7FFFFFC18#36 := by decide
theorem test_word_opt : Event.word (.pubOpt 2#8) = 0x800000002#36 := by decide
theorem test_sync_codes : [Sync.unsynced, .sawFirstMarker, .sawSecondMarker, .expectHeight].map Sync.bits =
    [0#2, 1#2, 2#2, 3#2] := by decide
theorem test_sync_codes_read : [0#2, 1#2, 2#2, 3#2].map Sync.ofBits =
    [.unsynced, .sawFirstMarker, .sawSecondMarker, .expectHeight] := by decide
theorem test_opt_absent : optOfBits (0x05A#9) = (none : Option (BitVec 8)) := by decide
theorem test_opt_present : optOfBits (0x15A#9) = some 0x5A#8 := by decide
theorem test_frame : frameBytes 0x64#8 = [0x01#8, 0x01#8, 0x01#8, 0x64#8] := by decide
theorem test_text_written : (Instr.upd 2300 true .down).text = "UPD 2300, 1, 1".toList := by decide
theorem test_text_read : readTrace "ADDP 0x2,8000 ; a preset\nSETT -1000\nTICKI 1500".toList =
    some [.addp 2#8 8000#32, .sett (BitVec.ofInt 32 (-1000)), .tick 1500 true true] := by decide
theorem test_text_refused : readTrace "RXB 256".toList = none := by decide

/-! ## Operations, one step each -/

/-- R165: `RESET 100` sets both deadlines to 1100. -/
theorem test_reset_lockouts : ((after (.reset 100) ready).btnUp, (after (.reset 100) ready).btnDown) =
    (mkBtn 0 0 0 0 false false 1100, mkBtn 0 0 0 0 false false 1100) := by decide
/-- R165: nothing survives a `RESET` in the middle of a trace. -/
theorem test_reset_clears : (after (.reset 0) (seeking (some 9#8) (some 8#32) none)).hc = Hc.reset := by decide

/-- R8, R236: a 16-bit clock wraps at 65536, a 64-bit clock does not at 2^32. -/
theorem test_reset_other_width :
    (refusal (exec (.reset 64536) (clocked 16 ready)), (nextState (exec (.reset 64535) (clocked 16 ready))).isSome,
      (after (.reset 0x100000000) (clocked 64 ready)).btnUp.lockout) = (some .clockWrap, true, 0x1000003E8) := by decide

/-- V-H4. -/
theorem test_init_pulse : events .init fresh = [0x400000000#36, 0x400000001#36, 0x500000032#36, 0x400000000#36] := by
  decide
theorem test_init_twice : refusal (exec .init ready) = some .initTwice := by decide

/-- R167: the byte goes to the tail. -/
theorem test_rxb_tail : (after (.rxb 7#8) { ready with rxq := [1#8, 2#8] }).rxq = [1#8, 2#8, 7#8] := by decide

/-- V-S6: a difference of exactly 5 arrives. -/
theorem test_tick_arrives : (after (.tick 9 true true) (seeking (some 95#8) (some 100#32) none)).hc =
    { cur := some 95#8, tgt := none, rep := none, dir := .stop } := by decide
/-- V-H7: both buttons pass the hold time in one tick. -/
theorem test_tick_both_buttons : events (.tick 3001 false false) (withBtns heldDown heldDown 2000) =
    [0x400000001#36, 0x800000000#36, 0x400000002#36, 0x800000000#36] := by decide

/-- V-S7: the raw value, then the inches value. -/
theorem test_slowtick_reports : events .slowtick (seeking (some 95#8) none none) = [0x60000005F#36, 0x70000251C#36] := by
  decide
/-- V-H3: `MIN_RAW = 100` and a height of 90 give −1000. -/
theorem test_slowtick_negative :
    events .slowtick { seeking (some 90#8) none none with cfg := { cfg with minRaw := 100#32 } } =
      [0x60000005A#36, 0x7FFFFFC18#36] := by decide

/-- V-H2: `SETT 20000` with `MIN_RAW = 10`, `MIN_H = 25000`. -/
theorem test_sett_below_minimum :
    (after (.sett 20000#32) { ready with cfg := { cfg with minRaw := 10#32, minH := 25000#32 } }).hc.tgt =
      some (BitVec.ofInt 32 (-40)) := by decide
/-- V-H2: `SETT -5` clears. -/
theorem test_sett_clears :
    (after (.sett (BitVec.ofInt 32 (-5))) (seeking none (some 100#32) none)).hc.tgt = none := by decide

/-- V-D1, step 8. -/
theorem test_feed_agrees :
    events (.feed 0x64#8) { ready with dec := { sync := .expectHeight, last := none, cur := some 0x64#8 } } =
      [0x100000064#36] := by decide
/-- V-D4, step 4: a fourth `01` is a height byte. -/
theorem test_feed_marker_is_height :
    (after (.feed 0x01#8) { ready with dec := { sync := .expectHeight, last := none, cur := none } }).dec =
      { sync := .unsynced, last := none, cur := some 0x01#8 } := by decide

/-- V-B3, step 3. -/
theorem test_upd_double_click : (after (.upd 2300 true .up) (withBtns tapped idleBtn 2100)).btnUp =
    mkBtn 2300 2000 2100 0 true false 3300 := by decide
/-- V-B2, step 3, on the other detector. -/
theorem test_upd_press : events (.upd 3001 true .down) (withBtns idleBtn heldDown 3000) = [0x200000003#36] := by decide

/-- V-L1: the first pair with the label wins. -/
theorem test_sel_first_match : ((after (.sel 2#8) withPresets).hc.tgt, (after (.sel 2#8) withPresets).sel.idx) =
    (some 80#32, 2) := by decide
/-- V-L1: an unknown label publishes nothing. -/
theorem test_sel_unknown : events (.sel 7#8) withPresets = [] := by decide

/-- V-L1: "None" is shown and the target stays. -/
theorem test_hchg : ((after .hchg (seeking none (some 80#32) none)).hc.tgt, events .hchg ready) =
    (some 80#32, [0x800000000#36]) := by decide

/-- R201's worked example, its first line. -/
theorem test_addp : (after (.addp 1#8 11000#32) fresh).sel.presets =
    [{ label := 0#8, h := none }, { label := 1#8, h := some 11000#32 }] := by decide

/-! ## Witnesses of the obligations' hypotheses -/

/-- A state with one command word waiting. -/
def waiting (w : Command) : State := { ready with cmds := [.word w] }

/-- A state with one operation waiting. -/
def asking (i : Instr) : State := { ready with cmds := [.op i] }

theorem witness_InvalidWordEncodesNothing_opcodes : (0x0FFFFFFFFFFF#48).extractLsb' 44 4 = 0x0#4 ∧
    0xC#4 ≤ (0xC00000000000#48).extractLsb' 44 4 ∧ 0xC#4 ≤ (0xFFFFFFFFFFFF#48).extractLsb' 44 4 := by decide
theorem witness_InvalidWordEncodesNothing_zeros :
    (0xB10000000000#48).extractLsb' 44 4 = (Instr.addp 0#8 0#32).matchBits.extractLsb' 44 4 ∧
    0xB10000000000#48 &&& (Instr.addp 0#8 0#32).maskBits ≠ (Instr.addp 0#8 0#32).matchBits := by decide
theorem witness_OperandsAssembledFromFields : decode 0x4002000007D0#48 = .ok (.tick 2000 false true) ∧
    decode 0x8003000008FC#48 = .ok (.upd 2300 true .down) ∧ decode 0xB0FF80000000#48 = .ok (.addp 255#8 0x80000000#32) :=
  ⟨rfl, rfl, rfl⟩
theorem witness_InvalidWordRefused_low : (waiting 0x000000000000#48).cmds = .word 0x000000000000#48 :: [] ∧
    (waiting 0x000000000000#48).cfg.timeBits = 32 ∧ (0x000000000000#48).extractLsb' 44 4 = 0x0#4 := by decide
theorem witness_InvalidWordRefused_other_width :
    (clocked 16 (waiting 0x200000000000#48)).cmds = .word 0x200000000000#48 :: [] ∧
    (clocked 16 (waiting 0x200000000000#48)).cfg.timeBits ≠ 32 := by decide
theorem witness_InvalidWordRefused_high : (waiting 0xC00000000000#48).cmds = .word 0xC00000000000#48 :: [] ∧
    0xC#4 ≤ (0xC00000000000#48).extractLsb' 44 4 := by decide
theorem witness_InvalidWordRefused_zeros : (waiting 0x200000000001#48).cmds = .word 0x200000000001#48 :: [] ∧
    (0x200000000001#48).extractLsb' 44 4 = Instr.init.matchBits.extractLsb' 44 4 ∧
    0x200000000001#48 &&& Instr.init.maskBits ≠ Instr.init.matchBits := by decide
theorem witness_StepRunsDecodedCommand :
    (waiting 0xA00000000000#48).cmds = .word 0xA00000000000#48 :: [] ∧ (waiting 0xA00000000000#48).cfg.timeBits = 32 ∧
    decode 0xA00000000000#48 = .ok .hchg := ⟨rfl, rfl, rfl⟩
theorem witness_StepRunsDecodedCommand_op : (asking .hchg).cmds = .op .hchg :: [] := rfl
theorem witness_StepWaitsWithoutCommand : ready.cmds = [] := rfl
theorem witness_EncodedTraceRunsInOrder : ready.cmds = [] ∧ ready.cfg.timeBits = 32 ∧
    ∀ i ∈ [Instr.tick 0xFFFFFFFF true true], i.encodable = true := ⟨rfl, rfl, by simp [Instr.encodable, wordTimeBits]⟩

/-- `ready` with the decoder at a stage. -/
def atStage (sync : Sync) : State := { ready with dec := { sync := sync, last := none, cur := some 5#8 } }

theorem witness_FeedMarkerStages_mismatch :
    (atStage .sawSecondMarker).boot ≠ .unbuilt ∧ (0x02#8 : Byte) ≠ 0x01#8 ∧
      (atStage .sawSecondMarker).dec.sync ≠ .expectHeight := by decide
theorem witness_FeedMarkerStages_match : (atStage .unsynced).boot ≠ .unbuilt ∧ (atStage .unsynced).dec.sync = .unsynced ∧
    (atStage .sawFirstMarker).dec.sync = .sawFirstMarker ∧
    (atStage .sawSecondMarker).dec.sync = .sawSecondMarker := by decide
theorem witness_FeedHeightStage :
    (atStage .expectHeight).boot ≠ .unbuilt ∧ (atStage .expectHeight).dec.sync = .expectHeight := by decide
theorem witness_HeightsSurfacedIffCyclesAgree :
    ready.boot ≠ .unbuilt ∧ ready.dec = { sync := .unsynced, last := none, cur := none } := by decide
theorem witness_CorruptedHeightByteCostsOneMoreFrame :
    ready.boot ≠ .unbuilt ∧ ready.dec = { sync := .unsynced, last := none, cur := none } ∧ (0x74#8 : Byte) ≠ 0x64#8 := by
  decide

theorem witness_UpdEffect_latest_time : ready.boot ≠ .unbuilt ∧ clockOk 0xFFFFFC17 ready := by
  unfold clockOk; decide
theorem witness_UpdEffect_same_time :
    ready.boot ≠ .unbuilt ∧ clockOk 2100 (withBtns tapped idleBtn 2100) := by unfold clockOk; decide
theorem witness_DoubleClickFiresOnlyAtRisingEdge_fires : EdgesOrdered (withBtns tapped idleBtn 2100) ∧
    exec (.upd 2999 true .up) (withBtns tapped idleBtn 2100) =
      .next (after (.upd 2999 true .up) (withBtns tapped idleBtn 2100)) ∧
    (2999 : Nat) < tapped.rise + 1000 ∧ tapped.rise > tapped.lockout := by
  refine ⟨?_, runs (by decide), by decide⟩; unfold EdgesOrdered Btn.ordered; decide
theorem witness_DoubleClickFiresOnlyAtRisingEdge_gap : EdgesOrdered (withBtns tapped idleBtn 2100) ∧
    exec (.upd 3000 true .up) (withBtns tapped idleBtn 2100) =
      .next (after (.upd 3000 true .up) (withBtns tapped idleBtn 2100)) ∧
    ¬(3000 : Nat) < tapped.rise + 1000 := by
  refine ⟨?_, runs (by decide), by decide⟩; unfold EdgesOrdered Btn.ordered; decide
theorem witness_HoldDispatchesPressOnce_long :
    idleBtn.level = false ∧ idleBtn.disp = false ∧ idleBtn.fall < (2000 : Nat) ∧
    execAll [.upd 2000 true .up, .upd 3001 true .up] ready =
      .next (afterAll [.upd 2000 true .up, .upd 3001 true .up] ready) ∧
    exec (.upd 4000 false .up) (afterAll [.upd 2000 true .up, .upd 3001 true .up] ready) =
      .next (after (.upd 4000 false .up) (afterAll [.upd 2000 true .up, .upd 3001 true .up] ready)) ∧
    (∃ x ∈ [(3001 : Nat)], x > (2000 : Nat) + 1000) :=
  ⟨by decide, by decide, by decide, runs (by decide), runs (by decide), 3001, by simp, by decide⟩
theorem witness_HoldDispatchesPressOnce_short :
    execAll [.upd 2000 true .up, .upd 3000 true .up] ready =
      .next (afterAll [.upd 2000 true .up, .upd 3000 true .up] ready) ∧
    exec (.upd 4000 false .up) (afterAll [.upd 2000 true .up, .upd 3000 true .up] ready) =
      .next (after (.upd 4000 false .up) (afterAll [.upd 2000 true .up, .upd 3000 true .up] ready)) ∧
    ¬∃ x ∈ [(3000 : Nat)], x > (2000 : Nat) + 1000 :=
  ⟨runs (by decide), runs (by decide), by simp⟩
theorem witness_UntouchedButtonIsSilent : State.btn ready .up = Btn.reset 1000 ∧
    execAll [.upd 0 false .up, .upd 5000 false .up] ready =
      .next (afterAll [.upd 0 false .up, .upd 5000 false .up] ready) := ⟨by decide, runs (by decide)⟩

/-- V-B7 before its fourth step. -/
def sameStamp : State := withBtns (mkBtn 2000 2000 2000 0 true false 3000) idleBtn 2000

theorem witness_EqualStampsHideHold : sameStamp.boot ≠ .unbuilt ∧ clockOk 3500 sameStamp ∧
    (State.btn sameStamp .up).level = true ∧ (State.btn sameStamp .up).disp = false ∧
    (State.btn sameStamp .up).fall = (State.btn sameStamp .up).rise := by unfold clockOk; decide
theorem witness_EqualStampsHideHold_iterated :
    execAll [.upd 3500 true .up, .upd 9000 true .up] sameStamp =
      .next (afterAll [.upd 3500 true .up, .upd 9000 true .up] sameStamp) ∧
    (State.btn sameStamp .up).rise ≤ 9500 ∧
    exec (.upd 9500 false .up) (afterAll [.upd 3500 true .up, .upd 9000 true .up] sameStamp) =
      .next (after (.upd 9500 false .up) (afterAll [.upd 3500 true .up, .upd 9000 true .up] sameStamp)) :=
  ⟨runs (by decide), by decide, runs (by decide)⟩
theorem witness_EdgeOrderKept : EdgesOrdered (waiting 0x4002000007D0#48) ∧
    step (waiting 0x4002000007D0#48) = .next ((nextState (step (waiting 0x4002000007D0#48))).getD ready) := by
  refine ⟨?_, runs (by decide)⟩; unfold EdgesOrdered Btn.ordered; decide
theorem witness_LockoutNeverDecreases : EdgesOrdered (withBtns tapped idleBtn 2100) ∧
    notReset (.upd 2300 true .up) ∧
    exec (.upd 2300 true .up) (withBtns tapped idleBtn 2100) =
      .next (after (.upd 2300 true .up) (withBtns tapped idleBtn 2100)) := by
  refine ⟨?_, nofun, runs (by decide)⟩; unfold EdgesOrdered Btn.ordered; decide

theorem witness_ResetEffect : 0xFFFFFC17 + 1000 < 2 ^ ready.cfg.timeBits ∧
    2 ^ ready.cfg.timeBits ≤ 0xFFFFFC18 + 1000 := by decide
theorem witness_InitEffect : fresh.boot = .configuring := rfl
theorem witness_OutOfOrderRefused_before_reset : unbuilt.boot = .unbuilt ∧ notReset .init := ⟨rfl, nofun⟩
theorem witness_OutOfOrderRefused_boot : fresh.boot = .configuring ∧ ready.boot = .running := by decide
theorem witness_OutOfOrderRefused_wrap : 2 ^ ready.cfg.timeBits ≤ 0xFFFFFC18 + 1000 ∧ ready.boot = .running ∧
    ready.boot ≠ .unbuilt := by decide
theorem witness_OutOfOrderRefused_backwards :
    (withBtns tapped idleBtn 2100).boot = .running ∧ (withBtns tapped idleBtn 2100).boot ≠ .unbuilt ∧
    2099 + 1000 < 2 ^ (withBtns tapped idleBtn 2100).cfg.timeBits ∧
    2099 < (withBtns tapped idleBtn 2100).lastNow := by decide
theorem witness_WellFormedTracesAreTheOnesThatRun : unbuilt.boot = .unbuilt ∧ unbuilt.cmds = [] ∧
    traceWellFormed unbuilt.cfg.timeBits [.reset 5, .init] = true ∧
    steps 2 { unbuilt with cmds := [Instr.reset 5, Instr.init].map .op } =
      .next ((nextState (steps 2 { unbuilt with cmds := [Instr.reset 5, Instr.init].map .op })).getD ready) :=
  ⟨rfl, rfl, by decide, runs (by decide)⟩

theorem witness_RxbEffect : fresh.boot ≠ .unbuilt := by decide
theorem witness_TargetConversionRounds : Params.valid cfg ∧
    ((10000 : Int) - cfg.minH.toInt) * 10 = 100 * cfg.inchScale := by decide
theorem witness_ConversionRoundTrip : Params.valid cfg ∧
    ((10000 : Int) - cfg.minH.toInt) % ((cfg.inchScale : Int) / 10) = 0 := by decide
theorem witness_SettEffect_sets : ready.boot ≠ .unbuilt ∧ 0 < (100#32 : Height).toInt ∧
    -2 ^ 31 ≤ inchesToRaw ready.cfg (100#32 : Height).toInt ∧
    inchesToRaw ready.cfg (100#32 : Height).toInt < 2 ^ 31 := by decide
theorem witness_SettEffect_clears : (0#32 : Height).toInt ≤ 0 ∧ (BitVec.ofInt 32 (-1) : Height).toInt ≤ 0 := by decide

/-- A calibration under which a height converts to `2^31 - 1 + h`. -/
def highMinimum : State := { ready with cfg := { cfg with inchScale := 10, minRaw := 0x7FFFFFFF#32 } }

theorem witness_TargetConversionRounds_high : highMinimum.boot ≠ .unbuilt ∧ 0 < (1#32 : Height).toInt ∧
    2 ^ 31 ≤ inchesToRaw highMinimum.cfg (1#32 : Height).toInt := by decide
theorem witness_TargetConversionRounds_low : 0 < (10#32 : Height).toInt ∧
    inchesToRaw { cfg with minRaw := 0x80000000#32, minH := 20#32, inchScale := 10 } (10#32 : Height).toInt < -2 ^ 31 := by
  decide

theorem witness_TickSeekEffect : (seeking (some 94#8) (some 100#32) none).boot = .running ∧
    clockOk 0 (seeking (some 94#8) (some 100#32) none) ∧
    (seeking (some 94#8) (some 100#32) none).hc.tgt = some 100#32 := by unfold clockOk; decide
theorem witness_SeekIgnoresButtons : (seeking none (some 100#32) none).hc.tgt ≠ none := by decide
theorem witness_TickIdleEffect_press : (withBtns heldDown idleBtn 2000).boot = .running ∧
    clockOk 3001 (withBtns heldDown idleBtn 2000) ∧ (withBtns heldDown idleBtn 2000).hc.tgt = none ∧
    (upd (!false) 3001 heldDown).dclick = false ∧ (upd (!true) 3001 idleBtn).dclick = false ∧
    (upd (!false) 3001 heldDown).press = some true := by unfold clockOk; decide
theorem witness_TickIdleEffect_quiet : (upd (!true) 3001 idleBtn).press = none := by decide
theorem witness_TickDoubleClickSelects : aboutToSelect.boot = .running ∧ clockOk 2500 aboutToSelect ∧
    aboutToSelect.hc.tgt = none ∧ aboutToSelect.cfg.selAttached = true ∧ (1#8 : Label) = aboutToSelect.cfg.dcLabelUp ∧
    (upd (!false) 2500 aboutToSelect.btnUp).press = none ∧ (upd (!true) 2500 aboutToSelect.btnDown).press = none ∧
    (upd (!false) 2500 aboutToSelect.btnUp).dclick = decide (Button.up = .up) ∧
    (upd (!true) 2500 aboutToSelect.btnDown).dclick = decide (Button.up = .down) ∧
    lookup 1#8 aboutToSelect.sel.presets = some 1 ∧
    aboutToSelect.sel.presets[1]? = some { label := 1#8, h := some 11000#32 } ∧ 0 < (11000#32 : Height).toInt ∧
    -2 ^ 31 ≤ inchesToRaw aboutToSelect.cfg (11000#32 : Height).toInt ∧
    inchesToRaw aboutToSelect.cfg (11000#32 : Height).toInt < 2 ^ 31 := by unfold clockOk; decide

/-- `aboutToSelect` with no selector attached (V-H8). -/
def noSelector : State := { aboutToSelect with cfg := { cfg with selAttached := false } }

theorem witness_TickIdleTurns : aboutToSelect.boot = .running ∧ clockOk 2500 aboutToSelect ∧
    aboutToSelect.hc.tgt = none ∧ (upd (!false) 2500 aboutToSelect.btnUp).dclick = true ∧
    aboutToSelect.cfg.selAttached = true := by unfold clockOk; decide
theorem witness_NoSelectorNoSelection : noSelector.boot = .running ∧ clockOk 2300 noSelector ∧
    noSelector.hc.tgt = none ∧ noSelector.cfg.selAttached = false ∧
    (upd (!false) 2300 noSelector.btnUp).dclick = true := by unfold clockOk; decide
theorem witness_SeekIgnoresButtons_ends :
    exec (.tick 9 true true) (seeking (some 95#8) (some 100#32) none) =
      .next (after (.tick 9 true true) (seeking (some 95#8) (some 100#32) none)) ∧
    (seeking (some 95#8) (some 100#32) none).hc.tgt = some 100#32 ∧
    (after (.tick 9 true true) (seeking (some 95#8) (some 100#32) none)).hc.tgt ≠ some 100#32 :=
  ⟨runs (by decide), by decide, by decide⟩

/-- Seeking the least unreachable target, at the greatest height (V-H1). -/
def unreachable : State := seeking (some 255#8) (some 261#32) none

theorem witness_UnreachableTargetSoughtForEver : unreachable.hc.tgt = some 261#32 ∧ (261#32 : Raw).toInt > 260 ∧
    (∀ i ∈ [Instr.hchg], notReset i ∧ (∀ h, i ≠ .sett h) ∧ ∀ l, i ≠ .sel l) ∧
    execAll [.hchg] unreachable = .next (afterAll [.hchg] unreachable) ∧
    (afterAll [.hchg] unreachable).boot = .running ∧ clockOk 7 (afterAll [.hchg] unreachable) ∧
    (afterAll [.hchg] unreachable).hc.cur ≠ none :=
  ⟨by decide, by decide, by simp [notReset], runs (by decide), by decide, by unfold clockOk; decide, by decide⟩
/-- Seeking the greatest unreachable target below, at the least height. -/
def unreachableDown : State := seeking (some 0#8) (some (BitVec.ofInt 32 (-6))) none

theorem witness_UnreachableTargetSoughtForEver_down : unreachableDown.hc.tgt = some (BitVec.ofInt 32 (-6)) ∧
    (BitVec.ofInt 32 (-6) : Raw).toInt < -5 ∧ execAll [] unreachableDown = .next unreachableDown ∧
    unreachableDown.boot = .running ∧ clockOk 7 unreachableDown ∧ unreachableDown.hc.cur ≠ none :=
  ⟨by decide, by decide, rfl, by decide, by unfold clockOk; decide, by decide⟩
theorem witness_CurrentHeightNeverForgotten : exec .hchg unreachable = .next (after .hchg unreachable) ∧
    notReset .hchg ∧ (∀ now u d, Instr.hchg ≠ .tick now u d) ∧ unreachable.hc.cur ≠ none :=
  ⟨runs (by decide), nofun, nofun, by decide⟩
theorem witness_SlowtickEffect_silent : ready.boot ≠ .unbuilt ∧ ready.hc.cur = none ∧
    (seeking (some 9#8) none (some 9#8)).hc.cur = (seeking (some 9#8) none (some 9#8)).hc.rep := by decide
theorem witness_SlowtickEffect_reports : (seeking (some 9#8) none (some 8#8)).boot ≠ .unbuilt ∧
    (seeking (some 9#8) none (some 8#8)).hc.cur = some 9#8 ∧
    (seeking (some 9#8) none (some 8#8)).hc.rep ≠ some 9#8 := by decide
theorem witness_AddpEffect : fresh.boot = .configuring ∧ ready.boot = .running ∧ unbuilt.boot = .unbuilt := by decide
theorem witness_LookupFindsLeastIndex : PresetsFormed ready := ⟨⟨[], rfl, nofun⟩, by decide⟩
theorem witness_SelEffect_unknown : withPresets.boot ≠ .unbuilt ∧ lookup 7#8 withPresets.sel.presets = none := by decide
theorem witness_SelEffect_none : lookup 0#8 withPresets.sel.presets = some 0 := by decide
theorem witness_SelEffect_clears : lookup 3#8 withPresets.sel.presets = some 4 ∧
    withPresets.sel.presets[4]? = some { label := 3#8, h := some (BitVec.ofInt 32 (-500)) } ∧
    (BitVec.ofInt 32 (-500) : Height).toInt ≤ 0 := by decide
theorem witness_SelEffect_sets : lookup 2#8 withPresets.sel.presets = some 2 ∧
    withPresets.sel.presets[2]? = some { label := 2#8, h := some 8000#32 } ∧ 0 < (8000#32 : Height).toInt ∧
    -2 ^ 31 ≤ inchesToRaw withPresets.cfg (8000#32 : Height).toInt ∧
    inchesToRaw withPresets.cfg (8000#32 : Height).toInt < 2 ^ 31 := by decide
/-- `highMinimum` with one preset. -/
def highPreset : State :=
  { highMinimum with sel := { presets := [{ label := 0#8, h := none }, { label := 1#8, h := some 1#32 }], idx := 0 } }

theorem witness_SelEffect_out_of_range : highPreset.boot ≠ .unbuilt ∧ lookup 1#8 highPreset.sel.presets = some 1 ∧
    highPreset.sel.presets[1]? = some { label := 1#8, h := some 1#32 } ∧ 0 < (1#32 : Height).toInt ∧
    2 ^ 31 ≤ inchesToRaw highPreset.cfg (1#32 : Height).toInt := by decide

/-! ### One refusal of each name, and its situation -/

/-- `highPreset` with a double-click due on `DOWN` that selects its preset. -/
def highDoubleClick : State :=
  { highPreset with btnDown := tapped, lastNow := 2100, cfg := { highPreset.cfg with dcLabelDown := 1#8 } }

theorem highPreset_out_of_range : presetOutOfRange 1#8 highPreset :=
  ⟨1, 1#32, 1#8, by decide, by decide, by decide, by unfold heightOutOfRange; decide⟩

theorem witness_Refused_clockWrap : exec (.tick 0xFFFFFC18 true true) ready = .refused .clockWrap ∧
    refusalSituation (.tick 0xFFFFFC18 true true) ready .clockWrap :=
  ⟨rfl, 0xFFFFFC18, by decide, .inr (.inl ⟨rfl, true, true, rfl⟩)⟩
theorem witness_Refused_clockWrap_reset : exec (.reset 0xFFFFFC18) unbuilt = .refused .clockWrap ∧
    refusalSituation (.reset 0xFFFFFC18) unbuilt .clockWrap := ⟨rfl, 0xFFFFFC18, by decide, .inl rfl⟩
theorem witness_Refused_clockBackwards : exec (.upd 2099 true .up) sameStamp = .next (after (.upd 2099 true .up) sameStamp) ∧
    exec (.upd 1999 true .up) sameStamp = .refused .clockBackwards ∧
    refusalSituation (.upd 1999 true .up) sameStamp .clockBackwards :=
  ⟨runs (by decide), rfl, 1999, by decide, by decide, .inr ⟨nofun, true, .up, rfl⟩⟩
theorem witness_Refused_beforeReset : exec .hchg unbuilt = .refused .beforeReset ∧
    refusalSituation .hchg unbuilt .beforeReset := ⟨rfl, rfl, nofun⟩
theorem witness_Refused_tickBeforeInit : exec (.tick 9 true true) fresh = .refused .tickBeforeInit ∧
    refusalSituation (.tick 9 true true) fresh .tickBeforeInit := ⟨rfl, rfl, 9, true, true, rfl⟩
theorem witness_Refused_initTwice : exec .init ready = .refused .initTwice ∧
    refusalSituation .init ready .initTwice := ⟨rfl, rfl, rfl⟩
theorem witness_Refused_addpAfterInit : exec (.addp 1#8 5#32) ready = .refused .addpAfterInit ∧
    refusalSituation (.addp 1#8 5#32) ready .addpAfterInit := ⟨rfl, rfl, 1#8, 5#32, rfl⟩
theorem witness_Refused_targetOutOfRange_sett : refusal (exec (.sett 1#32) highMinimum) = some .targetOutOfRange ∧
    refusalSituation (.sett 1#32) highMinimum .targetOutOfRange :=
  ⟨by decide, .inl ⟨by decide, 1#32, rfl, by unfold heightOutOfRange; decide⟩⟩
theorem witness_Refused_targetOutOfRange_sel : refusal (exec (.sel 1#8) highPreset) = some .targetOutOfRange ∧
    refusalSituation (.sel 1#8) highPreset .targetOutOfRange :=
  ⟨by decide, .inr (.inl ⟨by decide, 1#8, rfl, highPreset_out_of_range⟩)⟩
theorem witness_Refused_targetOutOfRange_tick :
    refusal (exec (.tick 2300 true false) highDoubleClick) = some .targetOutOfRange ∧
    refusalSituation (.tick 2300 true false) highDoubleClick .targetOutOfRange :=
  ⟨by decide, .inr (.inr ⟨rfl, 2300, true, false, rfl, by unfold clockOk; decide, rfl, rfl,
    .inr ⟨by decide, highPreset_out_of_range⟩⟩)⟩

theorem witness_StepRefusal_noEncoding : step (clocked 16 (waiting 0x200000000000#48)) = .refused .noEncoding ∧
    stepRefusal (clocked 16 (waiting 0x200000000000#48)) .noEncoding :=
  ⟨rfl, .word 0x200000000000#48, [], rfl, .inl ⟨_, rfl, by decide, rfl⟩⟩
theorem witness_StepRefusal_reservedOpcode : step (waiting 0xC00000000000#48) = .refused .reservedOpcode ∧
    stepRefusal (waiting 0xC00000000000#48) .reservedOpcode :=
  ⟨rfl, .word 0xC00000000000#48, [], rfl, .inr (.inl ⟨_, rfl, rfl, by decide, rfl⟩)⟩
theorem witness_StepRefusal_mustBeZero : step (waiting 0x200000000001#48) = .refused .mustBeZero ∧
    stepRefusal (waiting 0x200000000001#48) .mustBeZero :=
  ⟨rfl, .word 0x200000000001#48, [], rfl, .inr (.inr (.inl ⟨_, rfl, rfl, ⟨.init, by decide, by decide⟩, rfl⟩))⟩
theorem witness_StepRefusal_operation : step (asking .init) = .refused .initTwice ∧
    stepRefusal (asking .init) .initTwice :=
  ⟨rfl, .op .init, [], rfl, .inr (.inr (.inr ⟨.init, .inl rfl, rfl, rfl⟩))⟩
theorem witness_StepAnswersNext_other_width :
    (nextState (step (clocked 16 (asking (.reset 64535))))).isSome = true := by decide

theorem witness_HchgEffect : ready.boot ≠ .unbuilt := by decide
theorem witness_PseudoOperationEffects : ready.boot ≠ .unbuilt ∧ ready.dec.sync = .unsynced ∧
    0xFFFFFC17 + 1000 < 2 ^ ready.cfg.timeBits := by decide
theorem witness_OperationsKeepToTheirGroups : exec .hchg ready = .next (after .hchg ready) := runs (by decide)
theorem witness_OperationsEmitOnlyTheirEvents : exec .hchg ready = .next (after .hchg ready) ∧ notReset .hchg :=
  ⟨runs (by decide), nofun⟩
theorem witness_EventWordsAsTabled : -2 ^ 31 ≤ (2147483647 : Int) ∧ (2147483647 : Int) < 2 ^ 31 := by decide

/-- A step of the selector, as a step of the machine: `SEL 2`. -/
def aboutToSel : State := { withPresets with cmds := [.word 0x900000000002#48] }

/-- The state `step` leaves. -/
def stepped (s : State) : State := (nextState (step s)).getD s

theorem witness_PresetListKept : PresetsFormed aboutToSel ∧ step aboutToSel = .next (stepped aboutToSel) := by
  refine ⟨⟨⟨presets.tail, rfl, ?_⟩, by decide⟩, runs (by decide)⟩
  decide
theorem witness_DirectionLoggedKept : DirectionLogged (waiting 0x4002000007D0#48) ∧
    step (waiting 0x4002000007D0#48) = .next (stepped (waiting 0x4002000007D0#48)) := ⟨rfl, runs (by decide)⟩

/-- `SLOWTICK` due on a new height. -/
def aboutToReport : State := { seeking (some 95#8) none none with cmds := [.word 0x500000000000#48] }

theorem witness_ReportsDeduplicatedKept : ReportsDeduplicated aboutToReport ∧
    step aboutToReport = .next (stepped aboutToReport) := ⟨⟨rfl, trivial⟩, runs (by decide)⟩
theorem witness_SelectionShownKept : PresetsFormed aboutToSel ∧ SelectionShown aboutToSel ∧
    step aboutToSel = .next (stepped aboutToSel) := ⟨witness_PresetListKept.1, rfl, runs (by decide)⟩

end Sys2Proof.Tests
end

section
/-! Proofs about the command word (30_encoding.md R84 to R88). Every row of R86 has one shape: the opcode, then
must-be-zero bits, then operand bits to the bottom of the word. `decode_of_row` and `decode_of_reserved` say what the
decoder answers for each opcode; the statements follow from them. -/

namespace Sys2Proof

open BitVec

/-! ## Masked words -/

/-- Two concatenations at the same place are equal exactly when their parts are. -/
theorem append_eq_append_iff {n m : Nat} {a c : BitVec n} {b d : BitVec m} : a ++ b = c ++ d ↔ a = c ∧ b = d := by
  refine ⟨fun h => ⟨?_, ?_⟩, fun ⟨hhigh, hlow⟩ => by rw [hhigh, hlow]⟩
  · simpa only [extractLsb'_append_eq_left] using congrArg (extractLsb' m n) h
  · simpa only [extractLsb'_append_eq_right] using congrArg (extractLsb' 0 m) h

/-- A word cut into opcode, must-be-zero bits and operand bits: masking the operand bits away leaves the opcode and
zeros exactly when the upper two fields are these. -/
theorem and_highMask_eq_iff (z f : Nat) (op : BitVec 4) (w : BitVec (4 + z + f)) :
    w &&& (allOnes (4 + z) ++ 0#f) = op ++ 0#z ++ 0#f ↔
      w.extractLsb' (z + f) 4 = op ∧ w.extractLsb' f z = 0#z := by
  have high : w.extractLsb' (z + f) 4 ++ w.extractLsb' f z = w.extractLsb' f (4 + z) :=
    extractLsb'_append_extractLsb'_eq_extractLsb' (Nat.add_comm z f)
  have masked : w &&& (allOnes (4 + z) ++ 0#f) = w.extractLsb' (z + f) 4 ++ w.extractLsb' f z ++ 0#f := by
    have cut := append_mask_low (w.extractLsb' f (4 + z)) (w.extractLsb' 0 f)
    rwa [extractLsb'_append_extractLsb', ← high] at cut
  rw [masked, append_left_inj, append_eq_append_iff]

/-! ## The rows of the opcode map -/

/-- The number of operand bits at the bottom of the words of a row (R84); the bits between them and the opcode must be
zero. -/
def Instr.operandBits : Instr → Nat
  | .init | .slowtick | .hchg => 0
  | .rxb _ | .feed _ | .sel _ => 8
  | .reset _ | .sett _ => 32
  | .tick _ _ _ | .upd _ _ _ => 34
  | .addp _ _ => 40

/-- `CW[47:44]` of the words of a row (R86). -/
def Instr.opcode : Instr → BitVec 4
  | .reset _ => 0x1#4
  | .init => 0x2#4
  | .rxb _ => 0x3#4
  | .tick _ _ _ => 0x4#4
  | .slowtick => 0x5#4
  | .sett _ => 0x6#4
  | .feed _ => 0x7#4
  | .upd _ _ _ => 0x8#4
  | .sel _ => 0x9#4
  | .hchg => 0xA#4
  | .addp _ _ => 0xB#4

/-- The opcode of a row is the opcode bits of its match value. -/
theorem opField_matchBits (row : Instr) : opField row.matchBits = row.opcode := by
  cases row <;> simp only [Instr.matchBits] <;> rfl

/-- The operation of the same row with every operand read from its field of `w` (R85). -/
def Instr.withFields (w : Command) : Instr → Instr
  | .reset _ => .reset (timeField w)
  | .init => .init
  | .rxb _ => .rxb (byteField w)
  | .tick _ _ _ => .tick (timeField w) (lowPinField w) (highPinField w)
  | .slowtick => .slowtick
  | .sett _ => .sett (wordField w)
  | .feed _ => .feed (byteField w)
  | .upd _ _ _ => .upd (timeField w) (lowPinField w) (Button.ofBit (highPinField w))
  | .sel _ => .sel (byteField w)
  | .hchg => .hchg
  | .addp _ _ => .addp (labelField w) (wordField w)

@[simp] theorem withFields_maskBits (w : Command) (row : Instr) : (row.withFields w).maskBits = row.maskBits := by
  cases row <;> rfl

@[simp] theorem withFields_matchBits (w : Command) (row : Instr) : (row.withFields w).matchBits = row.matchBits := by
  cases row <;> rfl

@[simp] theorem withFields_withFields (w : Command) (row : Instr) :
    (row.withFields w).withFields w = row.withFields w := by
  cases row <;> rfl

/-- R86: a word has a row's match bits under the row's mask exactly when it has the row's opcode and zeros in the row's
must-be-zero bits. -/
theorem masked_eq_matchBits_iff (w : Command) (row : Instr) :
    w &&& row.maskBits = row.matchBits ↔
      opField w = row.opcode ∧ w.extractLsb' row.operandBits (44 - row.operandBits) = 0#_ := by
  cases row <;> dsimp only [Instr.maskBits, Instr.matchBits, Instr.opcode, Instr.operandBits]
  case reset => exact and_highMask_eq_iff 12 32 0x1#4 w
  case init => exact and_highMask_eq_iff 44 0 0x2#4 w
  case rxb => exact and_highMask_eq_iff 36 8 0x3#4 w
  case tick => exact and_highMask_eq_iff 10 34 0x4#4 w
  case slowtick => exact and_highMask_eq_iff 44 0 0x5#4 w
  case sett => exact and_highMask_eq_iff 12 32 0x6#4 w
  case feed => exact and_highMask_eq_iff 36 8 0x7#4 w
  case upd => exact and_highMask_eq_iff 10 34 0x8#4 w
  case sel => exact and_highMask_eq_iff 36 8 0x9#4 w
  case hchg => exact and_highMask_eq_iff 44 0 0xA#4 w
  case addp => exact and_highMask_eq_iff 4 40 0xB#4 w

/-- The opcodes R88 reserves. -/
abbrev ReservedOpcode (op : BitVec 4) : Prop := op = 0x0#4 ∨ 0xC#4 ≤ op

/-- One operation of each row of the opcode map. -/
def rowSamples : List Instr :=
  [.reset 0, .init, .rxb 0, .tick 0 false false, .slowtick, .sett 0, .feed 0, .upd 0 false .up, .sel 0, .hchg, .addp 0 0]

/-- R86, R88: every opcode is reserved or a row's. -/
theorem reserved_or_row (op : BitVec 4) : ReservedOpcode op ∨ ∃ row ∈ rowSamples, op = row.opcode := by
  revert op
  decide

/-! ## What the decoder answers -/

/-- R88: a reserved opcode. -/
theorem decode_of_reserved {w : Command} (h : ReservedOpcode (opField w)) : decode w = .error .reservedOpcode := by
  have listed : ∀ op : BitVec 4, ReservedOpcode op → op ∈ [0x0#4, 0xC#4, 0xD#4, 0xE#4, 0xF#4] := by decide
  have hop := listed _ h
  simp only [List.mem_cons, List.not_mem_nil, or_false] at hop
  unfold decode
  rcases hop with hop | hop | hop | hop | hop <;> rw [hop] <;> rfl

/-- A row's opcode: the must-be-zero bits between opcode and operands decide. -/
theorem decode_eq_whenZero {w : Command} {row : Instr} (h : opField w = row.opcode) :
    decode w = whenZero (w.extractLsb' row.operandBits (44 - row.operandBits)) (row.withFields w) := by
  unfold decode
  rw [h]
  cases row <;> rfl

/-- R85, R86, R88: a row's opcode, in terms of the row's mask. -/
theorem decode_of_row {w : Command} {row : Instr} (h : opField w = row.opcode) :
    decode w = if w &&& row.maskBits = row.matchBits then .ok (row.withFields w) else .error .mustBeZero := by
  rw [decode_eq_whenZero h, whenZero]
  simp only [masked_eq_matchBits_iff, h, true_and]

/-- R85, R86: a word encodes an operation exactly when it has the match bits of its row and the operation's operands are
the word's fields. -/
theorem decode_eq_ok_iff {w : Command} {i : Instr} :
    decode w = .ok i ↔ w &&& i.maskBits = i.matchBits ∧ i.withFields w = i := by
  constructor
  · intro h
    obtain reserved | ⟨row, -, hop⟩ := reserved_or_row (opField w)
    · exact absurd ((decode_of_reserved reserved).symm.trans h) nofun
    · rw [decode_of_row hop] at h
      split at h
      next hmask =>
        obtain rfl : row.withFields w = i := Except.ok.inj h
        simp [hmask]
      next => exact absurd h nofun
  · rintro ⟨hmask, hfields⟩
    rw [decode_of_row ((masked_eq_matchBits_iff w i).mp hmask).1, if_pos hmask, hfields]

/-- R85: the operands of a word that decodes are its fields. -/
theorem withFields_of_decode {w : Command} {i : Instr} (h : decode w = .ok i) : i.withFields w = i :=
  (decode_eq_ok_iff.mp h).2

/-! ## The statements -/

/-- Settles O2: each row is `decode_eq_ok_iff`, the fields of the word being the operands that exist. -/
theorem decodeAgreesWithOpcodeMap : Obligations.DecodeAgreesWithOpcodeMap := by
  intro w
  simp [decode_eq_ok_iff, Instr.withFields, Instr.maskBits, Instr.matchBits]

/-- Settles O3: the operands are the fields of `withFields`, which `decode_eq_ok_iff` reads from the word. -/
theorem operandsAssembledFromFields : Obligations.OperandsAssembledFromFields := by
  intro w
  refine ⟨fun now h => ?reset, fun b h => ?rxb, fun now upN downN h => ?tick, fun h' h => ?sett, fun b h => ?feed,
    fun now level det h => ?upd, fun label h => ?sel, fun label h' h => ?addp⟩
  all_goals cases withFields_of_decode h
  case reset | rxb | sett | feed | sel => rfl
  case tick => exact ⟨rfl, rfl, rfl, rfl, rfl⟩
  case upd => exact ⟨rfl, rfl, rfl⟩
  case addp => exact ⟨rfl, rfl⟩

/-- Settles O4: each clause is one of the decoder's two errors. -/
theorem invalidWordEncodesNothing : Obligations.InvalidWordEncodesNothing := by
  rintro w i (reserved | ⟨row, hop, hmask⟩) h
  · exact absurd ((decode_of_reserved reserved).symm.trans h) nofun
  · rw [decode_of_row (hop.trans (opField_matchBits row)), if_neg hmask] at h
    exact absurd h nofun

end Sys2Proof
end

section
/-! Proofs about `FEED` (41_decoder.md R111 to R113, R119). `Feed` has three cases: a byte taken as the height, a marker
matched, a marker missed. `exec_feed_of_built` carries each over to the whole state. -/

namespace Sys2Proof.Machine

/-! ## What `Feed` answers -/

/-- R113: the height stage takes any byte. -/
theorem feed_of_expectHeight {d : Dec} (hsync : d.sync = .expectHeight) (b : Byte) :
    feed b d =
      ({ sync := .unsynced, last := d.cur, cur := some b }, if some b = d.cur then some b else none) := by
  simp only [feed, hsync]

/-- R112: in the marker stages only `dec.sync` moves, and no height is surfaced. -/
theorem feed_of_ne_expectHeight {d : Dec} (hsync : d.sync ≠ .expectHeight) (b : Byte) :
    feed b d = ({ d with sync := if b = marker then d.sync.succ else .unsynced }, none) := by
  unfold feed
  split
  next hheight => exact absurd hheight hsync
  next => rfl

/-! ## What `FEED` leaves -/

/-- R119: after a `RESET`, `FEED` replaces the decoder and logs the surfaced height, and does nothing else. -/
theorem exec_feed_of_built {s : State} (hboot : s.boot ≠ .unbuilt) (b : Byte) :
    exec (.feed b) s = .next
      { s with dec := (feed b s.dec).1, out := s.out ++ ((feed b s.dec).2.toList.map Event.height) } := by
  have answers : execFeed b s = .next (feedLeaf b s) := afterReset_built hboot _
  obtain ⟨-, leaves⟩ := execFeed_eq_next answers
  exact answers.trans (congrArg Host.Outcome.next leaves)

/-- R112: `FEED` in a marker stage moves `dec.sync` and nothing else of the state. -/
theorem exec_feed_of_ne_expectHeight {s : State} (hboot : s.boot ≠ .unbuilt) (hsync : s.dec.sync ≠ .expectHeight)
    (b : Byte) :
    exec (.feed b) s = .next
      { s with dec := { s.dec with sync := if b = marker then s.dec.sync.succ else .unsynced } } := by
  rw [exec_feed_of_built hboot, feed_of_ne_expectHeight hsync, Option.toList_none, List.map_nil, List.append_nil]

/-- R112: `FEED` of the marker byte in a marker stage goes to the next stage. -/
theorem exec_feed_marker {s : State} (hboot : s.boot ≠ .unbuilt) (hsync : s.dec.sync ≠ .expectHeight) :
    exec (.feed marker) s = .next { s with dec := { s.dec with sync := s.dec.sync.succ } } := by
  rw [exec_feed_of_ne_expectHeight hboot hsync, if_pos rfl]

/-! ## The statements -/

/-- Settles O10: a byte that is not the marker is the missed case of `exec_feed_of_ne_expectHeight`; the marker byte is
`exec_feed_marker` at each of the three stages. -/
theorem feedMarkerStages : Obligations.FeedMarkerStages := by
  intro s b hboot
  refine ⟨fun hb hsync => ?mismatch, fun hsync => ?unsynced, fun hsync => ?first, fun hsync => ?second⟩
  case mismatch => rw [exec_feed_of_ne_expectHeight hboot hsync, if_neg (show b ≠ marker from hb)]
  all_goals
    have matched := exec_feed_marker hboot (by rw [hsync]; nofun)
    rw [hsync] at matched
    exact matched

/-- Settles O11: the byte surfaces, and so is logged, exactly when it is the previous cycle's. -/
theorem feedHeightStage : Obligations.FeedHeightStage := by
  intro s b hboot hsync
  rw [exec_feed_of_built hboot, feed_of_expectHeight hsync]
  by_cases agree : s.dec.cur = some b
  · simp only [if_pos agree, if_pos agree.symm, Option.toList_some, List.map_cons, List.map_nil]
  · simp only [if_neg agree, if_neg (Ne.symm agree), Option.toList_none, List.map_nil]

end Sys2Proof.Machine
end

section
/-! Proofs about `UPD` (42_edge_detector.md R131 to R142). `upd_eq` says what `Upd` answers in terms of the captured
edge and the two tests; the edge and the tests are stated here in the numbers of R132, R133 and R136, and
`exec_upd_of_clockOk` carries the answer over to the whole state. -/

namespace Sys2Proof.Machine

/-! ## The captured edge and the two tests -/

/-- R132: a changed level shifts the stamp of its own edge and stores `now`. -/
theorem captureEdge_eq (level : Bool) (now : Nat) (b : Btn) :
    captureEdge level now b =
      if level = b.level then b
      else if level = true then { b with prevRise := b.rise, rise := now, level := true }
      else { b with prevFall := b.fall, fall := now, level := false } := by
  cases level <;> rfl

/-- R133: the press state in milliseconds. -/
theorem pressed_eq (now : Nat) (b : Btn) :
    pressed now b = decide (b.fall < b.rise ∧ (now : Int) - b.rise > 1000) := by
  simp only [pressed, held, ms_lt, Bool.decide_and]
  rfl

/-- R136: the three conditions of a double-click in milliseconds. -/
theorem doubleClick_eq (now : Nat) (b : Btn) :
    doubleClick now b =
      decide ((b.rise : Int) - b.prevRise < 1000 ∧ (now : Int) - b.fall < 1000 ∧ b.prevRise > b.lockout) := by
  simp only [doubleClick, dcGap, dcRelease, dcUnlocked, gt_iff_lt, ms_lt, Bool.decide_and, Bool.and_assoc]
  rfl

/-! ## What `UPD` leaves -/

/-- R142: `UPD` stores the detector `Upd` answers and the latest time, and logs the press event and then the
double-click; it does nothing else. -/
theorem exec_upd_of_clockOk {now : Nat} {s : State} (hboot : s.boot ≠ .unbuilt) (hclock : clockOk now s)
    (level : Bool) (det : Button) :
    exec (.upd now level det) s = .next
      { State.setBtn s det (upd level now (State.btn s det)).btn with
        lastNow := now
        out := s.out ++ ((upd level now (State.btn s det)).press.toList.map (Event.press det)) ++
          (if (upd level now (State.btn s det)).dclick then [Event.dclick det] else []) } := by
  have answers : execUpd now level det s = .next (updLeaf now level det { s with lastNow := now }) :=
    (afterReset_built hboot _).trans (atTime_ok hclock _)
  obtain ⟨-, -, leaves⟩ := execUpd_eq_next answers
  exact answers.trans (congrArg Host.Outcome.next leaves)

/-- R21, the row of `UPD`: writing the detector `det`, the latest time and the event log touches nothing else. -/
theorem keepsUntouched_upd (now : Nat) (level : Bool) (det : Button) (s : State) (v : Btn) (events : List Event) :
    keepsUntouched (.upd now level det) s { State.setBtn s det v with lastNow := now, out := events } := by
  cases det
  case up => exact ⟨rfl, rfl, rfl, fun _ => rfl, nofun, rfl, rfl, rfl, rfl⟩
  case down => exact ⟨rfl, rfl, rfl, nofun, fun _ => rfl, rfl, rfl, rfl, rfl⟩

/-- A detector just written is read back, whatever is written beside the detectors. -/
theorem btn_setBtn_time_out (s : State) (det : Button) (v : Btn) (now : Nat) (events : List Event) :
    State.btn { State.setBtn s det v with lastNow := now, out := events } det = v := by
  cases det <;> rfl

/-! ## The statement -/

/-- Settles O14: `exec_upd_of_clockOk`, with the answer of `Upd` (`upd_eq`) in terms of the captured edge `e`, the press
state `p` and the double-click test `c`. -/
theorem updEffect : Obligations.UpdEffect := by
  intro s now level det hboot hclock b e p c
  have he : e = captureEdge level now b := (captureEdge_eq level now b).symm
  have hp : p = pressed now e := (pressed_eq now e).symm
  have hc : c = doubleClick now e := (doubleClick_eq now e).symm
  have answer : upd level now b =
      { btn := { e with disp := p, lockout := if c = true then now + 1000 else e.lockout }
        press := if p = e.disp then none else some p
        dclick := c } := by
    rw [hp, hc, he, captureEdge_disp, captureEdge_lockout]
    exact upd_eq level now b
  refine ⟨_, exec_upd_of_clockOk hboot hclock level det, ?detector, ?events, rfl, keepsUntouched_upd ..⟩
  case detector => rw [btn_setBtn_time_out, answer]
  case events =>
    rw [answer]
    by_cases quiet : p = e.disp
    · simp only [if_pos quiet, Option.toList_none, List.map_nil]
    · simp only [if_neg quiet, Option.toList_some, List.map_cons, List.map_nil]

end Sys2Proof.Machine
end

section
/-! Proofs about the controller's operations other than `TICK` (43_height_controller.md R161 to R168, R176). The two
conversions are said in the numbers of R161 and R162; each operation has one equation for each of its cases. -/

namespace Sys2Proof.Machine

/-! ## The conversions -/

/-- R161 in the integers' own division. -/
theorem rawToH_eq (c : Params) (r : Int) :
    rawToH c r = (r - c.minRaw.toInt) * ((c.inchScale : Int) / 10) + c.minH.toInt := by
  have scale : ((c.inchScale / rawPerInch : Nat) : Int) = (c.inchScale : Int) / 10 := Int.natCast_ediv _ _
  rw [rawToH, scale]
  rfl

/-- R162: above `MIN_RAW` the converted target is the rounded quotient. -/
theorem inchesToRaw_sub_minRaw (c : Params) (h : Int) :
    inchesToRaw c h - c.minRaw.toInt = rnd ((h - c.minH.toInt) * 10) c.inchScale :=
  Int.add_sub_cancel _ _

/-! ## What the operations leave -/

/-- R165, inside the clock premise. -/
theorem exec_reset_of_fits {now : Nat} {s : State} (hfits : now + 1000 < 2 ^ s.cfg.timeBits) :
    exec (.reset now) s = .next (constructed now s) :=
  if_pos ((timeFits_iff _ bootLockoutMs now).mpr hfits)

/-- R165, outside the clock premise. -/
theorem exec_reset_of_wraps {now : Nat} {s : State} (hwraps : 2 ^ s.cfg.timeBits ≤ now + 1000) :
    exec (.reset now) s = .refused .clockWrap :=
  if_neg fun hfits => absurd ((timeFits_iff _ bootLockoutMs now).mp hfits) (Nat.not_lt.mpr hwraps)

/-- R166, between `RESET` and `INIT`. -/
theorem exec_init_of_configuring {s : State} (hboot : s.boot = .configuring) :
    exec .init s = .next (startupPulse { s with boot := .running }) := by
  simp only [exec, execInit, hboot]

/-- R166: the start-up pulse turns the outputs to Stop and logs its four events. -/
theorem startupPulse_eq (s : State) :
    startupPulse s =
      { s with
        hc := { s.hc with dir := .stop }
        out := s.out ++ [.drv .stop, .drv .up, .delay s.cfg.startupPulseMs, .drv .stop] } := by
  have events : (startupPulse s).out = s.out ++ [.drv .stop, .drv .up, .delay s.cfg.startupPulseMs, .drv .stop] := by
    rw [startupPulse_out, List.append_assoc, List.append_assoc, List.append_assoc]
    rfl
  rw [← events]
  rfl

/-- R168: after a `RESET`, `SETT` is `SetTarget`. -/
theorem exec_sett_of_built {s : State} (hboot : s.boot ≠ .unbuilt) (h : Height) :
    exec (.sett h) s = setTarget h s :=
  afterReset_built hboot _

/-- R176: after a `RESET`, `SLOWTICK` is the report. -/
theorem exec_slowtick_of_built {s : State} (hboot : s.boot ≠ .unbuilt) : exec .slowtick s = .next (report s) :=
  afterReset_built hboot _

/-- R176: with no height, or with the height reported last, there is nothing to report. -/
theorem report_of_nothing_new {s : State} (h : s.hc.cur = none ∨ s.hc.cur = s.hc.rep) : report s = s := by
  obtain same | ⟨c, hcur, hrep, -⟩ := report_cases s
  · exact same
  · rw [hcur] at h
    obtain absent | reported := h
    · exact absurd absent nofun
    · exact absurd reported.symm hrep

/-- R176: a height that was not reported last is published, raw before inches. -/
theorem report_of_new_height {s : State} {c : Byte} (hcur : s.hc.cur = some c) (hrep : s.hc.rep ≠ some c) :
    report s =
      { s with
        hc := { s.hc with rep := some c }
        out := s.out ++ [.pubRaw c, .pubInch (rawToH s.cfg c.toNat)] } := by
  simp only [report, hcur, if_neg hrep, emit, Byte.count, List.append_assoc, List.cons_append, List.nil_append]

/-! ## The statements -/

/-- Settles O31: the quotient's numerator and denominator are those of `inchesToRaw_sub_minRaw`, and `RND` has the two
properties whatever its free part; the refusal is `SetTarget`'s. -/
theorem targetConversionRounds : Obligations.TargetConversionRounds := by
  refine ⟨?rounds, ?refused⟩
  case rounds =>
    intro c h hvalid num q
    obtain ⟨hscale, -, -⟩ := hvalid
    have hq : q = rnd num c.inchScale := inchesToRaw_sub_minRaw c h
    obtain ⟨above, below⟩ := rnd_close num hscale
    rw [hq]
    exact ⟨fun k hk => hk ▸ rnd_exact k hscale, above, below⟩
  case refused =>
    intro s h hboot hpos hout
    rw [exec_sett_of_built hboot]
    exact setTarget_eq_refused.mpr ⟨⟨hpos, hout⟩, rfl⟩

/-- Settles O22: the two sides of the clock premise. -/
theorem resetEffect : Obligations.ResetEffect :=
  fun _ _ => ⟨exec_reset_of_fits, exec_reset_of_wraps⟩

/-- Settles O23: the start-up pulse after the boot order has moved on. -/
theorem initEffect : Obligations.InitEffect := by
  intro s hboot
  rw [exec_init_of_configuring hboot, startupPulse_eq]

/-- Settles O29. -/
theorem rxbEffect : Obligations.RxbEffect :=
  fun _ _ hboot => afterReset_built hboot _

/-- Settles O30. -/
theorem rawToHeightFormula : Obligations.RawToHeightFormula :=
  rawToH_eq

/-- Settles O33: the two cases in which `SetTarget` answers a next state. -/
theorem settEffect : Obligations.SettEffect := by
  intro s h hboot
  rw [exec_sett_of_built hboot]
  exact ⟨fun hpos hlow hhigh => setTarget_eq_next.mpr (.inl ⟨hpos, ⟨hlow, hhigh⟩, rfl⟩),
    fun hneg => setTarget_eq_next.mpr (.inr ⟨hneg, rfl⟩)⟩

/-- Settles O42: the two cases of the report, the inches value by `rawToH_eq`. -/
theorem slowtickEffect : Obligations.SlowtickEffect := by
  intro s hboot
  rw [exec_slowtick_of_built hboot]
  refine ⟨fun nothingNew => ?silent, fun c hcur hrep => ?reports⟩
  case silent => rw [report_of_nothing_new nothingNew]
  case reports => rw [report_of_new_height hcur hrep, rawToH_eq]

end Sys2Proof.Machine
end

section
/-! Proofs about `TICK` (43_height_controller.md R169 to R180). Under its premises `TICK` is its body, and with a target
pending the body is the seek step after the receive phase, with neither pins nor detectors in it. Without a target it is
the two buttons' turns, and `buttonStep_eq` says what a turn answers. -/

namespace Sys2Proof.Machine

/-! ## Premises -/

/-- R169: `TICK` in boot order and under the clock premise. -/
theorem exec_tick_of_premises {now : Nat} {s : State} (hboot : s.boot = .running) (hclock : clockOk now s)
    (upN downN : Bool) :
    exec (.tick now upN downN) s = tickBody now upN downN { s with lastNow := now } := by
  simp only [exec, execTick, hboot, atTime_ok hclock]

/-- R236, R256: a `TICK` runs, or is refused for its time and for what the state says of boot order and clock alone. -/
theorem tick_runs_or_refused (now : Nat) (s : State) :
    (s.boot = .running ∧ clockOk now s) ∨
      ∃ r, ∀ (upN downN : Bool) (t : State), t.boot = s.boot → t.cfg = s.cfg → t.lastNow = s.lastNow →
        exec (.tick now upN downN) t = .refused r := by
  cases hboot : s.boot with
  | unbuilt => exact .inr ⟨.beforeReset, fun _ _ _ ht _ _ => by simp only [exec, execTick, ht]⟩
  | configuring => exact .inr ⟨.tickBeforeInit, fun _ _ _ ht _ _ => by simp only [exec, execTick, ht]⟩
  | running =>
    obtain hclock | hwraps | ⟨hfits, hback⟩ := clock_cases now s
    · exact .inl ⟨rfl, hclock⟩
    · refine .inr ⟨.clockWrap, fun _ _ t ht hcfg _ => ?_⟩
      rw [← hcfg] at hwraps
      simp only [exec, execTick, ht, atTime_wrap hwraps]
    · refine .inr ⟨.clockBackwards, fun _ _ t ht hcfg hlast => ?_⟩
      rw [← hcfg] at hfits
      rw [← hlast] at hback
      simp only [exec, execTick, ht, atTime_backwards hfits hback]

/-- R169, R170: the state a `TICK` at `now` acts on. -/
theorem receive_atTime (now : Nat) (s : State) :
    receive { s with lastNow := now } =
      { s with
        dec := (feedAll s.rxq s.dec).1
        rxq := []
        hc := { s.hc with cur := latestHeight s.hc.cur (feedAll s.rxq s.dec).2 }
        lastNow := now } :=
  receive_eq _

/-! ## Ticks with a target pending -/

/-- R171, R173: with a target pending the body is the seek step, whatever the pins. -/
theorem tickBody_of_seeking {s : State} {g : Raw} (hseek : s.hc.tgt = some g) (now : Nat) (upN downN : Bool) :
    tickBody now upN downN s = .next (seekStep g (receive s)) := by
  have kept : (receive s).hc.tgt = some g := by rw [receive_eq]; exact hseek
  simp only [tickBody, actPhase, kept]

/-- R169 to R172: the whole of a `TICK` with a target pending. -/
theorem exec_tick_of_seeking {now : Nat} {s : State} {g : Raw} (hboot : s.boot = .running) (hclock : clockOk now s)
    (hseek : s.hc.tgt = some g) (upN downN : Bool) :
    exec (.tick now upN downN) s = .next (seekStep g (receive { s with lastNow := now })) :=
  (exec_tick_of_premises hboot hclock upN downN).trans
    (tickBody_of_seeking (s := { s with lastNow := now }) hseek now upN downN)

/-- R178: without a height a seek step does nothing. -/
theorem seekStep_of_absent {s : State} (habsent : s.hc.cur = none) (g : Raw) : seekStep g s = s := by
  simp only [seekStep, habsent]

/-- R172: with a height a seek step drives towards the target, or stops and clears it. -/
theorem seekStep_of_height {s : State} {c : Byte} (hcur : s.hc.cur = some c) (g : Raw) :
    seekStep g s =
      if (c.toNat : Int) - g.toInt < -5 then drive .up s
      else if (c.toNat : Int) - g.toInt > 5 then drive .down s
      else writeTgt none (drive .stop s) := by
  simp only [seekStep, hcur]
  rfl

/-- The state with both detectors replaced. -/
def withDetectors (up down : Btn) (s : State) : State := { s with btnUp := up, btnDown := down }

/-- R170: the receive phase neither reads nor writes the detectors. -/
theorem receive_withDetectors (up down : Btn) (s : State) :
    receive (withDetectors up down s) = withDetectors up down (receive s) := by
  rw [receive_eq, receive_eq]
  rfl

/-- R173: a seek step neither reads nor writes the detectors. -/
theorem seekStep_withDetectors (g : Raw) (up down : Btn) (s : State) :
    seekStep g (withDetectors up down s) = withDetectors up down (seekStep g s) := by
  cases hcur : s.hc.cur with
  | none => rw [seekStep_of_absent hcur, seekStep_of_absent (show (withDetectors up down s).hc.cur = none from hcur)]
  | some c =>
    rw [seekStep_of_height hcur, seekStep_of_height (show (withDetectors up down s).hc.cur = some c from hcur)]
    split
    · rfl
    · split <;> rfl

/-! ## Who changes the target -/

/-- R35: every operation but `RESET`, `SETT`, `SEL` and `TICK` leaves the target. -/
theorem exec_keeps_tgt {i : Instr} {s t : State} (h : exec i s = .next t)
    (hreset : ∀ now, i ≠ .reset now) (hsett : ∀ v, i ≠ .sett v) (hsel : ∀ l, i ≠ .sel l)
    (htick : ∀ now upN downN, i ≠ .tick now upN downN) : t.hc.tgt = s.hc.tgt := by
  cases i with
  | reset now => exact absurd rfl (hreset now)
  | sett v => exact absurd rfl (hsett v)
  | sel l => exact absurd rfl (hsel l)
  | tick now upN downN => exact absurd rfl (htick now upN downN)
  | init => rw [(execInit_eq_next h).2]; rfl
  | rxb b => rw [(execRxb_eq_next h).2]
  | slowtick =>
    rw [(execSlowtick_eq_next h).2]
    obtain same | ⟨c, -, -, reported⟩ := report_cases s
    · rw [same]
    · rw [reported]
  | feed b => rw [(execFeed_eq_next h).2]
  | upd now level det =>
    obtain ⟨-, -, leaves⟩ := execUpd_eq_next h
    rw [leaves]
    exact congrArg Hc.tgt (setBtn_hc s det _)
  | hchg => rw [(execHchg_eq_next h).2]; rfl
  | addp l v => rw [(execAddp_eq_next h).2]; rfl

/-- R172: a `TICK` that does not keep a pending target has arrived: it stops within the tolerance of a known height. -/
theorem tick_arrives {now : Nat} {upN downN : Bool} {s t : State} {g : Raw}
    (h : exec (.tick now upN downN) s = .next t) (hseek : s.hc.tgt = some g) (hlost : t.hc.tgt ≠ some g) :
    ∃ c, t.hc.cur = some c ∧ -5 ≤ (c.toNat : Int) - g.toInt ∧ (c.toNat : Int) - g.toInt ≤ 5 ∧
      t.hc.dir = .stop ∧ t.hc.tgt = none := by
  obtain ⟨hboot, hclock, -⟩ := execTick_eq_next h
  rw [exec_tick_of_seeking hboot hclock hseek, Host.Outcome.next.injEq] at h
  have kept : (receive { s with lastNow := now }).hc.tgt = some g := by rw [receive_eq]; exact hseek
  obtain ⟨-, step⟩ | ⟨c, hcur, ⟨-, step⟩ | ⟨-, step⟩ | ⟨hlow, hhigh, step⟩⟩ :=
    seekStep_cases g (receive { s with lastNow := now })
  all_goals obtain rfl := step.symm.trans h
  case inr.inr.inr => exact ⟨c, hcur, hlow, hhigh, rfl, rfl⟩
  all_goals exact absurd kept hlost

/-! ## Ticks without a target -/

/-- R171, R174: without a target the body is `UP`'s turn, then `DOWN`'s. -/
theorem tickBody_of_idle {s : State} (hidle : s.hc.tgt = none) (now : Nat) (upN downN : Bool) :
    tickBody now upN downN s =
      andThen (buttonStep .up (!upN) now (receive s)) (buttonStep .down (!downN) now) := by
  have kept : (receive s).hc.tgt = none := by rw [receive_eq]; exact hidle
  simp only [tickBody, actPhase, kept]
  rfl

/-- R169 to R171, R174: the whole of a `TICK` without a target. -/
theorem exec_tick_of_idle {now : Nat} {s : State} (hboot : s.boot = .running) (hclock : clockOk now s)
    (hidle : s.hc.tgt = none) (upN downN : Bool) :
    exec (.tick now upN downN) s =
      andThen (buttonStep .up (!upN) now (receive { s with lastNow := now })) (buttonStep .down (!downN) now) :=
  (exec_tick_of_premises hboot hclock upN downN).trans
    (tickBody_of_idle (s := { s with lastNow := now }) hidle now upN downN)

@[simp] theorem pressTurn_cfg (b : Button) (level : Bool) (now : Nat) (s : State) :
    (pressTurn b level now s).cfg = s.cfg := by
  rw [pressTurn, pressReaction_eq, setBtn_cfg]

@[simp] theorem pressTurn_boot (b : Button) (level : Bool) (now : Nat) (s : State) :
    (pressTurn b level now s).boot = s.boot := by
  rw [pressTurn, pressReaction_eq, setBtn_boot]

/-- R174, R180: a turn ends with the press reaction, or, on a double-click with a selector attached, with `Select`. -/
theorem buttonStep_eq (b : Button) (level : Bool) (now : Nat) (s : State) :
    buttonStep b level now s =
      if (upd level now (State.btn s b)).dclick = true ∧ s.cfg.selAttached = true then
        select (Params.dcLabel s.cfg b) (pressTurn b level now s)
      else .next (pressTurn b level now s) := by
  have turn : buttonStep b level now s =
      dclickReaction b (upd level now (State.btn s b)).dclick (pressTurn b level now s) := rfl
  rw [turn, dclickReaction, requestPreset, pressTurn_cfg, ite_and]

/-- A turn leaves the boot order as it was. -/
theorem buttonStep_boot {b : Button} {level : Bool} {now : Nat} {s t : State}
    (h : buttonStep b level now s = .next t) : t.boot = s.boot := by
  rw [← pressTurn_boot b level now s]
  obtain rfl | ⟨-, -, hsel⟩ := buttonStep_eq_next h
  · rfl
  · obtain ⟨-, rfl⟩ | ⟨i, u, -, rfl | ⟨r, rfl⟩, rfl⟩ := select_eq_next hsel <;> rfl

/-- R174, R175, R205: a turn is `idleTurn`, the meaning of `SEL` being `Select` once the block is built. -/
theorem buttonStep_eq_idleTurn {s : State} (hboot : s.boot ≠ .unbuilt) (b : Button) (level : Bool) (now : Nat) :
    buttonStep b level now s = idleTurn b level now s := by
  have built : ∀ l, exec (.sel l) (pressTurn b level now s) = select l (pressTurn b level now s) := fun l =>
    afterReset_built (by rw [pressTurn_boot]; exact hboot) _
  rw [buttonStep_eq, ← built, pressTurn, pressReaction_eq]
  unfold idleTurn
  generalize upd level now (State.btn s b) = answer
  obtain ⟨v, press, dclick⟩ := answer
  cases b <;> cases press <;> rfl

/-- Two continuations that agree on the answered state. -/
theorem andThen_congr {o : Result} {f g : State → Result} (h : ∀ s, o = .next s → f s = g s) :
    andThen o f = andThen o g := by
  cases o with
  | next s => exact h s rfl
  | fault r => rfl
  | refused r => rfl

/-- The direction after a list of events: that of its last drive, or `old` if it is empty. -/
def directionAfter (old : Dir) (events : List Event) : Dir := if events = [] then old else lastDriven events

/-- R164: the direction after a drive. -/
theorem directionAfter_drv (old : Dir) (events : List Event) (d : Dir) :
    directionAfter old (events ++ [.drv d]) = d := by
  rw [directionAfter, if_neg (List.append_ne_nil_of_right_ne_nil _ (List.cons_ne_nil _ _)), lastDriven_drv]

/-- R180: with no selector attached a press event's reaction is its drive. -/
theorem reactionEvents_noSelector_some (b : Button) (p : Bool) :
    reactionEvents false b (some p) = [.drv (if p = true then buttonDir b else .stop)] := by
  cases b <;> rfl

/-- The directions of two reactions one after the other. -/
theorem directionAfter_append_reaction (old : Dir) (events : List Event) (b : Button) (press : Option Bool) :
    directionAfter (directionAfter old events) (reactionEvents false b press) =
      directionAfter old (events ++ reactionEvents false b press) := by
  cases press with
  | none => exact congrArg (directionAfter old) (List.append_nil events).symm
  | some p =>
    rw [reactionEvents_noSelector_some, directionAfter_drv]
    exact directionAfter_drv _ [] _

/-- R180: with no selector attached a press event drives, and does nothing else. -/
theorem pressReaction_of_noSelector {s : State} (hsel : s.cfg.selAttached = false) (b : Button) (press : Option Bool) :
    pressReaction b press s =
      { s with
        hc := { s.hc with dir := directionAfter s.hc.dir (reactionEvents false b press) }
        out := s.out ++ reactionEvents false b press } := by
  rw [pressReaction_eq, hsel, if_neg (fun h => absurd h.2 nofun)]
  cases press with
  | none => rfl
  | some p =>
    rw [reactionEvents_noSelector_some, show directionAfter s.hc.dir [.drv _] = _ from directionAfter_drv _ [] _]

/-- R180: with no selector attached a turn stores the detector and drives for the press event, and does nothing else. -/
theorem buttonStep_of_noSelector {s : State} (hsel : s.cfg.selAttached = false) (b : Button) (level : Bool)
    (now : Nat) :
    buttonStep b level now s = .next
      { State.setBtn s b (upd level now (State.btn s b)).btn with
        hc := { s.hc with
          dir := directionAfter s.hc.dir (reactionEvents false b (upd level now (State.btn s b)).press) }
        out := s.out ++ reactionEvents false b (upd level now (State.btn s b)).press } := by
  rw [buttonStep_eq, hsel, if_neg (fun h => absurd h.2 nofun), pressTurn,
    pressReaction_of_noSelector ((setBtn_cfg s b _).symm ▸ hsel), setBtn_hc, setBtn_out]

/-- R174, R180: both turns with no selector attached. -/
theorem turns_of_noSelector {s : State} (hsel : s.cfg.selAttached = false) (levelUp levelDown : Bool) (now : Nat) :
    andThen (buttonStep .up levelUp now s) (buttonStep .down levelDown now) = .next
      { s with
        btnUp := (upd levelUp now s.btnUp).btn
        btnDown := (upd levelDown now s.btnDown).btn
        hc := { s.hc with
          dir := directionAfter s.hc.dir
            (reactionEvents false .up (upd levelUp now s.btnUp).press ++
              reactionEvents false .down (upd levelDown now s.btnDown).press) }
        out := s.out ++
          (reactionEvents false .up (upd levelUp now s.btnUp).press ++
            reactionEvents false .down (upd levelDown now s.btnDown).press) } := by
  rw [buttonStep_of_noSelector hsel, andThen_next, buttonStep_of_noSelector ?detached]
  case detached => exact hsel
  simp only [setBtn_up, setBtn_down, btn_up, btn_down, directionAfter_append_reaction, List.append_assoc]

/-! ## The statements -/

/-- Settles O34: the receive phase, then the seek step on the height it leaves. -/
theorem tickSeekEffect : Obligations.TickSeekEffect := by
  intro s now upN downN g hboot hclock hseek fed cur r
  rw [exec_tick_of_seeking hboot hclock hseek, receive_atTime]
  cases hcur : cur with
  | none => exact congrArg _ (seekStep_of_absent hcur g)
  | some c => exact congrArg _ (seekStep_of_height hcur g)

/-- Settles O35: the pins and the detectors do not occur in `exec_tick_of_seeking`, and a target that is lost was
overridden, or `tick_arrives`. -/
theorem seekIgnoresButtons : Obligations.SeekIgnoresButtons := by
  refine ⟨?pins, ?detectors, ?target⟩
  case pins =>
    intro s now u d u' d' hseek
    obtain ⟨g, hg⟩ := Option.ne_none_iff_exists'.mp hseek
    obtain ⟨hboot, hclock⟩ | ⟨r, refused⟩ := tick_runs_or_refused now s
    · rw [exec_tick_of_seeking hboot hclock hg, exec_tick_of_seeking hboot hclock hg]
    · rw [refused u d s rfl rfl rfl, refused u' d' s rfl rfl rfl]
  case detectors =>
    intro s now u d x y hseek
    change exec (.tick now u d) (withDetectors x y s) =
      andThen (exec (.tick now u d) s) fun t => .next (withDetectors x y t)
    obtain ⟨g, hg⟩ := Option.ne_none_iff_exists'.mp hseek
    obtain ⟨hboot, hclock⟩ | ⟨r, refused⟩ := tick_runs_or_refused now s
    · rw [exec_tick_of_seeking hboot hclock hg, andThen_next, ← seekStep_withDetectors, ← receive_withDetectors]
      exact exec_tick_of_seeking (s := withDetectors x y s) hboot hclock hg u d
    · rw [refused u d s rfl rfl rfl, refused u d (withDetectors x y s) rfl rfl rfl, andThen_refused]
  case target =>
    intro i s t g h hseek hlost
    cases i with
    | reset now => exact .inl ⟨now, rfl⟩
    | sett v => exact .inr (.inl ⟨v, rfl⟩)
    | sel l => exact .inr (.inr (.inl ⟨l, rfl⟩))
    | tick now u d =>
      obtain ⟨c, arrived⟩ := tick_arrives h hseek hlost
      exact .inr (.inr (.inr ⟨now, u, d, c, rfl, arrived⟩))
    | _ => exact absurd ((exec_keeps_tgt h nofun nofun nofun nofun).trans hseek) hlost

/-- Settles O37: each turn is `buttonStep_eq_idleTurn`, the second on a state still built. -/
theorem tickIdleTurns : Obligations.TickIdleTurns := by
  intro s now upN downN hboot hclock hidle fed
  have built : (receive { s with lastNow := now }).boot ≠ .unbuilt := by
    rw [receive_atTime]
    exact hboot.symm ▸ nofun
  rw [exec_tick_of_idle hboot hclock hidle]
  calc andThen (buttonStep .up (!upN) now (receive { s with lastNow := now })) (buttonStep .down (!downN) now)
      = andThen (buttonStep .up (!upN) now (receive { s with lastNow := now })) (idleTurn .down (!downN) now) :=
        andThen_congr fun _ hup => buttonStep_eq_idleTurn (buttonStep_boot hup ▸ built) ..
    _ = andThen (idleTurn .up (!upN) now (receive { s with lastNow := now })) (idleTurn .down (!downN) now) := by
        rw [buttonStep_eq_idleTurn built]
    _ = _ := by rw [receive_atTime]

/-- Settles O39: the receive phase, then the two turns of `turns_of_noSelector`. -/
theorem noSelectorNoSelection : Obligations.NoSelectorNoSelection := by
  intro s now upN downN hboot hclock hidle hsel fed up down events
  have detached : (receive { s with lastNow := now }).cfg.selAttached = false := by
    rw [receive_atTime]
    exact hsel
  rw [exec_tick_of_idle hboot hclock hidle, turns_of_noSelector detached, receive_atTime]
  rfl

end Sys2Proof.Machine
end

section
/-! Proofs about the selector's operations (44_preset_selector.md R201 to R204). `Lookup` is the search of the list of
labels for its first occurrence; `Select` has one equation for each outcome of that search: not found, the sentinel's
index, a later pair. -/

namespace Sys2Proof.Machine

/-! ## Lookup -/

/-- R202: `Lookup` is the library's search for a first occurrence, on the labels of the list. -/
theorem lookup_eq_idxOf? (label : Label) (ps : List Preset) :
    lookup label ps = (ps.map Preset.label).idxOf? label := by
  induction ps with
  | nil => rfl
  | cons p rest ih => simp only [lookup, ih, List.map_cons, List.idxOf?_cons, beq_iff_eq]

/-- R202: the index found has the label, and no index before it has. -/
theorem lookup_eq_some_iff {label : Label} {ps : List Preset} {i : Nat} :
    lookup label ps = some i ↔
      (ps[i]?).map Preset.label = some label ∧ ∀ j < i, (ps[j]?).map Preset.label ≠ some label := by
  simp only [lookup_eq_idxOf?, List.idxOf?_eq_some_iff, ← List.getElem?_map, List.getElem?_eq_some_iff, ne_eq,
    ← exists_and_right]
  exact exists_congr fun hi => and_congr_right fun _ => forall₂_congr fun j hj =>
    not_congr ⟨fun hlabel => ⟨hj.trans hi, hlabel⟩, fun ⟨_, hlabel⟩ => hlabel⟩

/-- R202: nothing is found exactly when no pair has the label. -/
theorem lookup_eq_none_iff {label : Label} {ps : List Preset} :
    lookup label ps = none ↔ ∀ p ∈ ps, p.label ≠ label := by
  rw [lookup_eq_idxOf?, List.idxOf?_eq_none_iff, List.mem_map]
  exact ⟨fun absent p hp hlabel => absent ⟨p, hp, hlabel⟩, fun absent ⟨p, hp, hlabel⟩ => absent p hp hlabel⟩

/-- R202: a label is found at 0 when the first pair has it. -/
theorem lookup_head (p : Preset) (rest : List Preset) : lookup p.label (p :: rest) = some 0 :=
  if_pos rfl

/-! ## `Select` -/

/-- R203: after a `RESET`, `SEL` is `Select`. -/
theorem exec_sel_of_built {s : State} (hboot : s.boot ≠ .unbuilt) (label : Label) :
    exec (.sel label) s = select label s :=
  afterReset_built hboot _

/-- R203: a label that is not found. -/
theorem select_of_notFound {label : Label} {s : State} (h : lookup label s.sel.presets = none) :
    select label s = .next s := by
  simp only [select, h]

/-- R203: a label that is found has its pair forwarded, is selected, and is published. -/
theorem select_of_found {label : Label} {s : State} {i : Nat} (h : lookup label s.sel.presets = some i) :
    select label s = andThen (forwardPreset i s) fun t => .next (emit (.pubOpt label) (writeIdx i t)) := by
  simp only [select, h]

/-- R203: the sentinel's index contributes no move. -/
theorem forwardPreset_zero (s : State) : forwardPreset 0 s = .next s :=
  if_pos rfl

/-- R203: a later pair's height is the argument of `SetTarget`. -/
theorem forwardPreset_of_stored {s : State} {i : Nat} {h : Height} {l : Label} (hi : i ≠ 0)
    (hstored : s.sel.presets[i]? = some { label := l, h := some h }) : forwardPreset i s = setTarget h s := by
  rw [forwardPreset, if_neg hi, presetHeight_eq_some.mpr ⟨l, hstored⟩]

/-- R203: the label at index 0 is selected and published, and moves nothing. -/
theorem select_of_found_zero {label : Label} {s : State} (h : lookup label s.sel.presets = some 0) :
    select label s = .next (emit (.pubOpt label) (writeIdx 0 s)) := by
  rw [select_of_found h, forwardPreset_zero, andThen_next]

/-- R203: a later label sets the target first, and is then selected and published. -/
theorem select_of_found_later {label : Label} {s : State} {i : Nat} {h : Height} {l : Label}
    (hfound : lookup label s.sel.presets = some i) (hi : i ≠ 0)
    (hstored : s.sel.presets[i]? = some { label := l, h := some h }) :
    select label s = andThen (setTarget h s) fun t => .next (emit (.pubOpt label) (writeIdx i t)) := by
  rw [select_of_found hfound, forwardPreset_of_stored hi hstored]

/-! ## `ADDP` -/

/-- R201, between `RESET` and `INIT`. -/
theorem exec_addp_of_configuring {s : State} (hboot : s.boot = .configuring) (label : Label) (h : Height) :
    exec (.addp label h) s = .next (appendPreset label h s) := by
  simp only [exec, execAddp, hboot]

/-- R201, after `INIT`. -/
theorem exec_addp_of_running {s : State} (hboot : s.boot = .running) (label : Label) (h : Height) :
    exec (.addp label h) s = .refused .addpAfterInit := by
  simp only [exec, execAddp, hboot]

/-- R201, before the first `RESET`. -/
theorem exec_addp_of_unbuilt {s : State} (hboot : s.boot = .unbuilt) (label : Label) (h : Height) :
    exec (.addp label h) s = .refused .beforeReset := by
  simp only [exec, execAddp, hboot]

/-! ## The statements -/

/-- Settles O44: the two characterisations of `Lookup`, and the sentinel at the head of the list. -/
theorem lookupFindsLeastIndex : Obligations.LookupFindsLeastIndex := by
  refine ⟨fun label ps => ⟨fun i => lookup_eq_some_iff, lookup_eq_none_iff⟩, ?sentinel⟩
  rintro s ⟨⟨rest, hpresets, -⟩, -⟩
  rw [hpresets]
  exact lookup_head { label := 0x00#8, h := none } rest

/-- Settles O45: the three outcomes of the search, and for a later pair the three outcomes of `SetTarget`. -/
theorem selEffect : Obligations.SelEffect := by
  intro s label hboot
  rw [exec_sel_of_built hboot]
  refine ⟨select_of_notFound, select_of_found_zero, fun i h l hfound hi hstored => ?later⟩
  rw [select_of_found_later hfound hi hstored]
  refine ⟨fun hneg => ?clears, fun hpos hlow hhigh => ?sets, fun hpos hout => ?refused⟩
  case clears =>
    rw [setTarget_eq_next.mpr (.inr ⟨hneg, rfl⟩)]
    rfl
  case sets =>
    rw [setTarget_eq_next.mpr (.inl ⟨hpos, ⟨hlow, hhigh⟩, rfl⟩)]
    rfl
  case refused => rw [setTarget_eq_refused.mpr ⟨⟨hpos, hout⟩, rfl⟩, andThen_refused]

/-- Settles O43: `ADDP` at each of the three positions of the boot order. -/
theorem addpEffect : Obligations.AddpEffect :=
  fun _ label h => ⟨fun hboot => exec_addp_of_configuring hboot label h,
    fun hboot => exec_addp_of_running hboot label h, fun hboot => exec_addp_of_unbuilt hboot label h⟩

/-- Settles O46: after a `RESET`, `HCHG` is `HeightChanged`, which writes the index and the log alone. -/
theorem hchgEffect : Obligations.HchgEffect :=
  fun _ hboot => afterReset_built hboot _

end Sys2Proof.Machine
end

section
/-! Proofs about the hazards of 70_reset_and_hazards.md. A target above 260 or below −5 is more than the tolerance away
from every byte (R262), so a seek step on a height drives and never arrives, and without an arrival only an override ends
a seek. -/

namespace Sys2Proof.Machine

/-! ## Traces -/

/-- R70: what every operation of a trace keeps, the trace keeps. -/
theorem execAll_keeps {P : State → Prop} {trace : List Instr} {s t : State}
    (keeps : ∀ i ∈ trace, ∀ a b, exec i a = .next b → P a → P b)
    (h : execAll trace s = .next t) (hs : P s) : P t := by
  induction trace generalizing s with
  | nil =>
    obtain rfl := Host.Outcome.next.inj h
    exact hs
  | cons i rest ih =>
    obtain ⟨a, first, remaining⟩ := andThen_eq_next.mp h
    exact ih (fun j hj => keeps j (List.mem_cons_of_mem i hj)) remaining (keeps i List.mem_cons_self s a first hs)

/-! ## The current height -/

/-- R34: decoded heights do not make a height absent. -/
theorem latestHeight_ne_none {old : Option Byte} (hold : old ≠ none) (hs : List Byte) : latestHeight old hs ≠ none := by
  unfold latestHeight
  split
  · exact nofun
  · exact hold

/-! ## Unreachable targets -/

/-- R172, R262: at every height a seek step for an unreachable target drives towards it. -/
theorem seekStep_of_unreachable {s : State} {c : Byte} {g : Raw} (hcur : s.hc.cur = some c)
    (hout : g.toInt > 260 ∨ g.toInt < -5) :
    seekStep g s = drive (if g.toInt > 260 then .up else .down) s := by
  have hbyte : c.toNat < 256 := c.isLt
  rw [seekStep_of_height hcur]
  obtain habove | hbelow := hout
  case inl => rw [if_pos (by omega), if_pos habove]
  case inr => rw [if_neg (by omega), if_pos (by omega), if_neg (by omega)]

/-- R35, R262: only an override ends the seek of an unreachable target, no byte being within the tolerance of it. -/
theorem exec_keeps_unreachable_tgt {i : Instr} {s t : State} {g : Raw} (hout : g.toInt > 260 ∨ g.toInt < -5)
    (hreset : notReset i) (hsett : ∀ v, i ≠ .sett v) (hsel : ∀ l, i ≠ .sel l)
    (h : exec i s = .next t) (hseek : s.hc.tgt = some g) : t.hc.tgt = some g := by
  obtain ⟨-, -, endsSeek⟩ := seekIgnoresButtons
  by_contra hlost
  obtain ⟨now, hi⟩ | ⟨v, hi⟩ | ⟨l, hi⟩ | ⟨-, -, -, c, -, -, hlow, hhigh, -⟩ := endsSeek i s t g h hseek hlost
  · exact hreset now hi
  · exact hsett v hi
  · exact hsel l hi
  · have hbyte : c.toNat < 256 := c.isLt
    omega

/-- R169 to R172, R262: a `TICK` with a known height and an unreachable target is its receive phase and a drive towards
the target. -/
theorem exec_tick_of_unreachable {now : Nat} {s : State} {g : Raw} (hboot : s.boot = .running) (hclock : clockOk now s)
    (hseek : s.hc.tgt = some g) (hout : g.toInt > 260 ∨ g.toInt < -5) (hknown : s.hc.cur ≠ none) (upN downN : Bool) :
    exec (.tick now upN downN) s =
      .next (drive (if g.toInt > 260 then .up else .down) (receive { s with lastNow := now })) := by
  have known : (receive { s with lastNow := now }).hc.cur ≠ none := by
    rw [receive_atTime]
    exact latestHeight_ne_none hknown _
  obtain ⟨c, hcur⟩ := Option.ne_none_iff_exists'.mp known
  rw [exec_tick_of_seeking hboot hclock hseek, seekStep_of_unreachable hcur hout]

/-! ## The statements -/

/-- Settles O40: every operation of the trace keeps the target, and a `TICK` after it is `exec_tick_of_unreachable`. -/
theorem unreachableTargetSoughtForEver : Obligations.UnreachableTargetSoughtForEver := by
  intro trace s t g hseek hout noOverride hrun
  have kept : t.hc.tgt = some g := by
    refine execAll_keeps (P := fun a => a.hc.tgt = some g) (fun i hi a b => ?_) hrun hseek
    obtain ⟨hreset, hsett, hsel⟩ := noOverride i hi
    exact exec_keeps_unreachable_tgt hout hreset hsett hsel
  refine ⟨kept, fun now u d hboot hclock hknown =>
    ⟨_, exec_tick_of_unreachable hboot hclock kept hout hknown u d, ?_⟩⟩
  rw [receive_atTime]
  exact ⟨kept, rfl, rfl, rfl⟩

end Sys2Proof.Machine
end

section
/-! The command word as a whole (30_encoding.md R84 to R88) and the event word (R90 to R92). Reading the fields of an
encoded word gives back the operation, and writing the fields of a word of a row gives back the word, so decoder and
encoder are inverse. -/

namespace Sys2Proof

open BitVec

/-! ## A word put together from its fields -/

/-- Two neighbouring fields of a word are one field. -/
theorem field_append_field {n : Nat} (w : BitVec n) (start low high : Nat) :
    w.extractLsb' (start + low) high ++ w.extractLsb' start low = w.extractLsb' start (high + low) :=
  extractLsb'_append_extractLsb'_eq_extractLsb' rfl

/-- A single bit as a field. -/
theorem ofBool_getLsbD {n : Nat} (w : BitVec n) (k : Nat) : ofBool (w.getLsbD k) = w.extractLsb' k 1 := by
  refine eq_of_getLsbD_eq fun j hj => ?_
  obtain rfl : j = 0 := by omega
  simp

theorem formatN_of_fields {w : Command} {op : BitVec 4} (hop : opField w = op) (zeros : w.extractLsb' 0 44 = 0#44) :
    formatN op = w := by
  rw [formatN, ← hop, ← zeros]
  exact (field_append_field w 0 44 4).trans extractLsb'_eq_self

theorem formatB_of_fields {w : Command} {op : BitVec 4} (hop : opField w = op) (zeros : w.extractLsb' 8 36 = 0#36) :
    formatB op (byteField w) = w := by
  have upper : opField w ++ w.extractLsb' 8 36 = w.extractLsb' 8 40 := field_append_field w 8 36 4
  rw [formatB, ← hop, ← zeros, upper]
  exact (field_append_field w 0 8 40).trans extractLsb'_eq_self

theorem formatT_of_fields {w : Command} {op : BitVec 4} (hop : opField w = op) (zeros : w.extractLsb' 32 12 = 0#12) :
    formatT op (wordField w) = w := by
  have upper : opField w ++ w.extractLsb' 32 12 = w.extractLsb' 32 16 := field_append_field w 32 12 4
  rw [formatT, ← hop, ← zeros, upper]
  exact (field_append_field w 0 32 16).trans extractLsb'_eq_self

theorem formatP_of_fields {w : Command} {op : BitVec 4} (hop : opField w = op) (zeros : w.extractLsb' 34 10 = 0#10) :
    formatP op (highPinField w) (lowPinField w) (wordField w) = w := by
  have upper : opField w ++ w.extractLsb' 34 10 = w.extractLsb' 34 14 := field_append_field w 34 10 4
  have high : w.extractLsb' 34 14 ++ w.extractLsb' 33 1 = w.extractLsb' 33 15 := field_append_field w 33 1 14
  have low : w.extractLsb' 33 15 ++ w.extractLsb' 32 1 = w.extractLsb' 32 16 := field_append_field w 32 1 15
  rw [formatP, ← hop, highPinField, lowPinField, ofBool_getLsbD, ofBool_getLsbD, ← zeros, upper, high, low]
  exact (field_append_field w 0 32 16).trans extractLsb'_eq_self

theorem formatL_of_fields {w : Command} {op : BitVec 4} (hop : opField w = op) (zeros : w.extractLsb' 40 4 = 0#4) :
    formatL op (labelField w) (wordField w) = w := by
  have upper : opField w ++ w.extractLsb' 40 4 = w.extractLsb' 40 8 := field_append_field w 40 4 4
  have label : w.extractLsb' 40 8 ++ labelField w = w.extractLsb' 32 16 := field_append_field w 32 8 8
  rw [formatL, ← hop, ← zeros, upper, label]
  exact (field_append_field w 0 32 16).trans extractLsb'_eq_self

/-! ## Decoder and encoder -/

/-- R85: an operation read from the fields of a word has a time that fits the word. -/
theorem encodable_withFields (w : Command) (row : Instr) : (row.withFields w).encodable = true := by
  cases row
  case reset | tick | upd => exact decide_eq_true (timeField_lt w)
  all_goals rfl

/-- R84, R85: a word with a row's opcode and zeros in its must-be-zero bits is the word of its fields. -/
theorem encode_withFields {w : Command} {row : Instr} (hop : opField w = row.opcode)
    (hzeros : w.extractLsb' row.operandBits (44 - row.operandBits) = 0#_) : encode (row.withFields w) = w := by
  cases row <;> simp only [Instr.withFields, encode, timeWord_timeField, bit_ofBit]
  case init | slowtick | hchg => exact formatN_of_fields hop hzeros
  case rxb | feed | sel => exact formatB_of_fields hop hzeros
  case reset | sett => exact formatT_of_fields hop hzeros
  case tick | upd => exact formatP_of_fields hop hzeros
  case addp => exact formatL_of_fields hop hzeros

/-- R84, R86: the word of an operation has the match bits of its row. -/
theorem encode_masked (i : Instr) : encode i &&& i.maskBits = i.matchBits := by
  cases i
  case reset now => exact Laws.EncodeMatchesRow.reset now
  case init => exact Laws.EncodeMatchesRow.init
  case rxb b => exact Laws.EncodeMatchesRow.rxb b
  case tick now upN downN => exact Laws.EncodeMatchesRow.tick now upN downN
  case slowtick => exact Laws.EncodeMatchesRow.slowtick
  case sett h => exact Laws.EncodeMatchesRow.sett h
  case feed b => exact Laws.EncodeMatchesRow.feed b
  case upd now level det => exact Laws.EncodeMatchesRow.upd now level det
  case sel l => exact Laws.EncodeMatchesRow.sel l
  case hchg => exact Laws.EncodeMatchesRow.hchg
  case addp l h => exact Laws.EncodeMatchesRow.addp l h

/-- R85: the fields of an operation's word are its operands, a time being one that fits. -/
theorem withFields_encode {i : Instr} (h : i.encodable = true) : i.withFields (encode i) = i := by
  cases i <;> simp only [Instr.withFields, encode, timeField, formatT_word, formatP_word, formatP_low, formatP_high,
    formatB_byte, formatL_label, formatL_word, ofBit_bit]
  case reset | tick | upd => rw [timeWord_toNat (of_decide_eq_true h)]

/-- R84, R85: what the encoder writes for an operation that has a word decodes to it. -/
theorem decode_encode {i : Instr} (h : i.encodable = true) : decode (encode i) = .ok i :=
  decode_eq_ok_iff.mpr ⟨encode_masked i, withFields_encode h⟩

/-- R84, R85: a word that decodes is what the encoder writes for the operation, which has a word. -/
theorem encode_of_decode {w : Command} {i : Instr} (h : decode w = .ok i) : i.encodable = true ∧ encode i = w := by
  obtain ⟨hmask, hfields⟩ := decode_eq_ok_iff.mp h
  obtain ⟨hop, hzeros⟩ := (masked_eq_matchBits_iff w i).mp hmask
  rw [← hfields]
  exact ⟨encodable_withFields w i, hfields.symm ▸ encode_withFields hop hzeros⟩

/-- R88: a word that does not decode has a reserved opcode, or a row's opcode without the row's match bits. -/
theorem decode_eq_error_iff {w : Command} {e : DecodeError} :
    decode w = .error e ↔
      (ReservedOpcode (opField w) ∧ e = .reservedOpcode) ∨
      ((∃ row : Instr, opField w = row.opcode ∧ w &&& row.maskBits ≠ row.matchBits) ∧ e = .mustBeZero) := by
  have must {row : Instr} (hop : opField w = row.opcode) (hmask : w &&& row.maskBits ≠ row.matchBits) :
      decode w = .error .mustBeZero := by rw [decode_of_row hop, if_neg hmask]
  constructor
  · intro h
    obtain reserved | ⟨row, -, hop⟩ := reserved_or_row (opField w)
    · rw [decode_of_reserved reserved] at h
      exact .inl ⟨reserved, (Except.error.inj h).symm⟩
    · by_cases hmask : w &&& row.maskBits = row.matchBits
      · rw [decode_of_row hop, if_pos hmask] at h
        exact absurd h nofun
      · rw [must hop hmask] at h
        exact .inr ⟨⟨row, hop, hmask⟩, (Except.error.inj h).symm⟩
  · rintro (⟨reserved, rfl⟩ | ⟨⟨row, hop, hmask⟩, rfl⟩)
    · exact decode_of_reserved reserved
    · exact must hop hmask

/-! ## Event words -/

/-- R90: an event word is its code above 32 zeros, with the payload below. -/
theorem eventWord_eq_or (code : BitVec 4) (payload : BitVec 32) :
    Machine.eventWord code payload = code ++ 0#32 ||| payload.setWidth 36 := by
  have split : code ++ payload = (code ++ 0#32) ||| (0#4 ++ payload) := by
    rw [or_append, or_zero, zero_or]
  rw [Machine.eventWord, split, setWidth_eq_append (by omega)]
  rfl

/-- R91: the event word of a payload narrower than 32 bits. -/
theorem eventWord_setWidth {n : Nat} (code : BitVec 4) (payload : BitVec n) (h : n ≤ 32) :
    Machine.eventWord code (payload.setWidth 32) = code ++ 0#32 ||| payload.setWidth 36 := by
  rw [eventWord_eq_or, setWidth_setWidth]
  omega

/-! ## The statements -/

/-- Settles O1: the two directions are `encode_of_decode` and `decode_encode`. -/
theorem decodeIffEncode : Obligations.DecodeIffEncode := by
  refine fun i w => ⟨encode_of_decode, ?_⟩
  rintro ⟨hfits, rfl⟩
  exact decode_encode hfits

/-- Settles O6: the six words are evaluated. -/
theorem writtenWordsDecode : Obligations.WrittenWordsDecode :=
  ⟨rfl, rfl, rfl, rfl, rfl, rfl⟩

/-- Settles O50: a payload narrower than a word is `eventWord_setWidth`, a whole one `eventWord_eq_or`, and the words
without an operand are evaluated. -/
theorem eventWordsAsTabled : Obligations.EventWordsAsTabled := by
  refine ⟨fun b => ?height, ?pressUp, ?pressDown, rfl, rfl, rfl, rfl, rfl, fun v => ?delay, fun b => ?raw,
    fun h hlow hhigh => ?inch, fun l => ?opt⟩
  case height => exact eventWord_setWidth 0x1#4 b (by omega)
  case pressUp => decide
  case pressDown => decide
  case delay => exact eventWord_eq_or 0x5#4 v
  case raw => exact eventWord_setWidth 0x6#4 b (by omega)
  case inch =>
    rw [Machine.Event.word, Machine.inchPayload, if_pos ⟨hlow, hhigh⟩]
    exact eventWord_eq_or 0x7#4 _
  case opt => exact eventWord_setWidth 0x8#4 l (by omega)

/-- Settles O54: the pins are the two bits of the direction's code. -/
theorem outputPinsFollowDirection : Obligations.OutputPinsFollowDirection := by
  intro s
  unfold Machine.State.upOut Machine.State.downOut
  cases s.hc.dir <;> decide

end Sys2Proof
end

section
/-! Which parts of the state an operation leaves as they were, and which events it logs (10_state.md R21, 30_encoding.md
R90, R91). Each operation but `TICK` has one equation for what it leaves; for `TICK` what holds after its receive phase
and is kept by every update inside it holds in the end (`tick_keeps`). -/

namespace Sys2Proof.Machine

/-! ## What a `TICK` leaves alone -/

/-- The part of the state that no update inside a `TICK` writes (R21). -/
def TickFrame (s u : State) : Prop :=
  u.cfg = s.cfg ∧ u.cmds = s.cmds ∧ u.hc.rep = s.hc.rep ∧ u.sel.presets = s.sel.presets ∧ u.boot = s.boot

/-- R21, the row of `TICK`. -/
theorem tick_frame {now : Nat} {upN downN : Bool} {s t : State} (h : execTick now upN downN s = .next t) :
    TickFrame s t := by
  refine tick_keeps h ?start (fun d u hu => hu) (fun r u hu => hu) (fun u hu => hu) (fun l i u _ hu => hu)
    (fun b l u hu => ?detector)
  case start =>
    rw [receive_atTime]
    exact ⟨rfl, rfl, rfl, rfl, rfl⟩
  case detector => cases b <;> exact hu

/-- R236: a `TICK` leaves its own time as the latest. -/
theorem tick_lastNow {now : Nat} {upN downN : Bool} {s t : State} (h : execTick now upN downN s = .next t) :
    t.lastNow = now := by
  refine tick_keeps (P := fun u => u.lastNow = now) h ?start (fun d u hu => hu) (fun r u hu => hu) (fun u hu => hu)
    (fun l i u _ hu => hu) (fun b l u hu => ?detector)
  case start => rw [receive_atTime]
  case detector => rwa [setBtn_lastNow]

/-- A seek step writes the controller and the log alone. -/
theorem seekStep_frame (g : Raw) (s : State) :
    (seekStep g s).btnUp = s.btnUp ∧ (seekStep g s).btnDown = s.btnDown ∧ (seekStep g s).sel = s.sel ∧
      (seekStep g s).lastNow = s.lastNow := by
  obtain ⟨-, step⟩ | ⟨c, -, ⟨-, step⟩ | ⟨-, step⟩ | ⟨-, -, step⟩⟩ := seekStep_cases g s
  all_goals
    rw [step]
    exact ⟨rfl, rfl, rfl, rfl⟩

/-- R173: a `TICK` with a target pending writes neither the detectors nor the selector. -/
theorem tick_seeking_frame {now : Nat} {upN downN : Bool} {s t : State} (h : execTick now upN downN s = .next t)
    (hseek : s.hc.tgt ≠ none) : t.btnUp = s.btnUp ∧ t.btnDown = s.btnDown ∧ t.sel = s.sel := by
  obtain ⟨-, -, ⟨g, -, rfl⟩ | ⟨hidle, -⟩⟩ := execTick_eq_next h
  · obtain ⟨hup, hdown, hsel, -⟩ := seekStep_frame g (receive { s with lastNow := now })
    rw [hup, hdown, hsel, receive_atTime]
    exact ⟨rfl, rfl, rfl⟩
  · exact absurd hidle hseek

/-- R34: a `TICK` does not make a height absent. -/
theorem tick_cur_ne_none {now : Nat} {upN downN : Bool} {s t : State} (h : execTick now upN downN s = .next t)
    (hknown : s.hc.cur ≠ none) : t.hc.cur ≠ none := by
  refine tick_keeps (P := fun u => u.hc.cur ≠ none) h ?start (fun d u hu => hu) (fun r u hu => hu) (fun u hu => hu)
    (fun l i u _ hu => hu) (fun b l u hu => ?detector)
  case start =>
    rw [receive_atTime]
    exact latestHeight_ne_none hknown _
  case detector => rwa [setBtn_hc]

/-! ## The events of an operation -/

/-- The log of `t` is that of `s` with events appended that `i` may emit (R90, R91). -/
def LogsOnly (i : Instr) (s t : State) : Prop := ∃ es, t.out = s.out ++ es ∧ ∀ e ∈ es, mayEmit i e

theorem logsOnly_of_same {i : Instr} {s t : State} (h : t.out = s.out) : LogsOnly i s t :=
  ⟨[], by rw [h, List.append_nil], nofun⟩

/-- One more event that the operation may emit. -/
theorem logsOnly_emit {i : Instr} {s u t : State} {e : Event} (hu : LogsOnly i s u) (he : mayEmit i e)
    (ht : t.out = u.out ++ [e]) : LogsOnly i s t := by
  obtain ⟨es, hes, hmay⟩ := hu
  refine ⟨es ++ [e], by rw [ht, hes, List.append_assoc], fun x hx => ?_⟩
  obtain hx | hx := List.mem_append.mp hx
  · exact hmay x hx
  · rwa [List.mem_singleton.mp hx]

theorem logsOnly_single {i : Instr} {s t : State} {e : Event} (he : mayEmit i e) (ht : t.out = s.out ++ [e]) :
    LogsOnly i s t :=
  logsOnly_emit (logsOnly_of_same rfl) he ht

/-- R91: a `TICK` logs drives and labels. -/
theorem tick_logsOnly {now : Nat} {upN downN : Bool} {s t : State} (h : execTick now upN downN s = .next t) :
    LogsOnly (.tick now upN downN) s t := by
  have mayDrive (d : Dir) : mayEmit (.tick now upN downN) (.drv d) := .inr ⟨now, upN, downN, rfl⟩
  have mayShow (l : Label) : mayEmit (.tick now upN downN) (.pubOpt l) := .inl ⟨now, upN, downN, rfl⟩
  refine tick_keeps h (logsOnly_of_same ?start) (fun d u hu => logsOnly_emit hu (mayDrive d) rfl) (fun r u hu => hu)
    (fun u hu => logsOnly_emit hu (mayShow lblNone) rfl) (fun l i u _ hu => logsOnly_emit hu (mayShow l) rfl)
    (fun b l u hu => ?detector)
  case start => rw [receive_atTime]
  case detector => cases b <;> exact hu

/-! ## The statements -/

/-- Settles O48: for each operation, the equation for what it leaves. -/
theorem operationsKeepToTheirGroups : Obligations.OperationsKeepToTheirGroups := by
  intro i s t h
  cases i with
  | reset now =>
    obtain ⟨-, rfl⟩ := execReset_eq_next h
    exact ⟨rfl, rfl, trivial⟩
  | init =>
    obtain ⟨-, rfl⟩ := execInit_eq_next h
    exact ⟨rfl, rfl, rfl, rfl, rfl, rfl, rfl, rfl, rfl, rfl, rfl⟩
  | rxb b =>
    obtain ⟨-, rfl⟩ := execRxb_eq_next h
    exact ⟨rfl, rfl, rfl, rfl, rfl, rfl, rfl, rfl, rfl, rfl⟩
  | tick now upN downN =>
    obtain ⟨hcfg, hcmds, hrep, hpresets, hboot⟩ := tick_frame h
    exact ⟨hcfg, hcmds, hrep, hpresets, hboot, tick_seeking_frame h⟩
  | slowtick =>
    obtain ⟨-, rfl⟩ := execSlowtick_eq_next h
    obtain step | ⟨c, -, -, step⟩ := report_cases s
    all_goals
      rw [step]
      exact ⟨rfl, rfl, rfl, rfl, rfl, rfl, rfl, rfl, rfl, rfl, rfl, rfl⟩
  | sett v =>
    obtain ⟨-, r, rfl⟩ := execSett_eq_next h
    exact ⟨rfl, rfl, rfl, rfl, rfl, rfl, rfl, rfl, rfl, rfl, rfl, rfl, rfl⟩
  | feed b =>
    obtain ⟨-, rfl⟩ := execFeed_eq_next h
    exact ⟨rfl, rfl, rfl, rfl, rfl, rfl, rfl, rfl, rfl⟩
  | upd now level det =>
    obtain ⟨-, -, rfl⟩ := execUpd_eq_next h
    exact keepsUntouched_upd ..
  | sel l =>
    obtain ⟨-, hsel⟩ := execSel_eq_next h
    obtain ⟨-, rfl⟩ | ⟨i, u, -, rfl | ⟨r, rfl⟩, rfl⟩ := select_eq_next hsel
    all_goals exact ⟨rfl, rfl, rfl, rfl, rfl, rfl, rfl, rfl, rfl, rfl, rfl, rfl⟩
  | hchg =>
    obtain ⟨-, rfl⟩ := execHchg_eq_next h
    exact ⟨rfl, rfl, rfl, rfl, rfl, rfl, rfl, rfl, rfl, rfl⟩
  | addp l v =>
    obtain ⟨-, rfl⟩ := execAddp_eq_next h
    exact ⟨rfl, rfl, rfl, rfl, rfl, rfl, rfl, rfl, rfl, rfl, rfl⟩

/-- Settles O49: an operation whose row of R21 leaves the log appends nothing; of the others, `TICK` is `tick_logsOnly`
and each equation names the events. -/
theorem operationsEmitOnlyTheirEvents : Obligations.OperationsEmitOnlyTheirEvents := by
  intro i s t h hreset
  change LogsOnly i s t
  cases i with
  | reset now => exact absurd rfl (hreset now)
  | init =>
    obtain ⟨-, rfl⟩ := execInit_eq_next h
    refine ⟨[.drv .stop, .drv .up, .delay s.cfg.startupPulseMs, .drv .stop], by rw [startupPulse_eq], ?_⟩
    simp [mayEmit]
  | rxb b =>
    obtain ⟨-, rfl⟩ := execRxb_eq_next h
    exact logsOnly_of_same rfl
  | tick now upN downN => exact tick_logsOnly h
  | slowtick =>
    obtain ⟨-, rfl⟩ := execSlowtick_eq_next h
    obtain step | ⟨c, -, -, step⟩ := report_cases s
    · exact logsOnly_of_same (by rw [step])
    · rw [step]
      refine ⟨[.pubRaw c, .pubInch _], List.append_assoc .., ?_⟩
      simp [mayEmit]
  | sett v =>
    obtain ⟨-, r, rfl⟩ := execSett_eq_next h
    exact logsOnly_of_same rfl
  | feed b =>
    obtain ⟨-, rfl⟩ := execFeed_eq_next h
    refine ⟨_, rfl, fun e he => ?_⟩
    obtain ⟨v, -, rfl⟩ := List.mem_map.mp he
    exact ⟨b, rfl⟩
  | upd now level det =>
    obtain ⟨-, -, rfl⟩ := execUpd_eq_next h
    refine ⟨_, List.append_assoc .., fun e he => ?_⟩
    obtain hpress | hdclick := List.mem_append.mp he
    · obtain ⟨p, -, rfl⟩ := List.mem_map.mp hpress
      exact ⟨now, level, rfl⟩
    · obtain rfl : e = .dclick det := by
        split at hdclick
        · exact List.mem_singleton.mp hdclick
        · exact absurd hdclick List.not_mem_nil
      exact ⟨now, level, rfl⟩
  | sel l =>
    obtain ⟨-, hsel⟩ := execSel_eq_next h
    have mayShow : mayEmit (.sel l) (.pubOpt l) := .inr (.inl ⟨l, rfl⟩)
    obtain ⟨-, rfl⟩ | ⟨i, u, -, rfl | ⟨r, rfl⟩, rfl⟩ := select_eq_next hsel
    · exact logsOnly_of_same rfl
    all_goals exact logsOnly_single mayShow rfl
  | hchg =>
    obtain ⟨-, rfl⟩ := execHchg_eq_next h
    have mayShow : mayEmit .hchg (.pubOpt lblNone) := .inr (.inr rfl)
    exact logsOnly_single mayShow rfl
  | addp l v =>
    obtain ⟨-, rfl⟩ := execAddp_eq_next h
    exact logsOnly_of_same rfl

/-- R34: only `RESET` and `TICK` write the current height. -/
theorem exec_keeps_cur {i : Instr} {s t : State} (h : exec i s = .next t) (hreset : notReset i)
    (htick : ∀ now upN downN, i ≠ .tick now upN downN) : t.hc.cur = s.hc.cur := by
  obtain ⟨-, -, kept⟩ := operationsKeepToTheirGroups i s t h
  cases i with
  | reset now => exact absurd rfl (hreset now)
  | tick now upN downN => exact absurd rfl (htick now upN downN)
  | init => obtain ⟨-, -, -, -, -, hcur, -⟩ := kept; exact hcur
  | slowtick => obtain ⟨-, -, -, -, -, hcur, -⟩ := kept; exact hcur
  | sett v => obtain ⟨-, -, -, -, -, -, hcur, -⟩ := kept; exact hcur
  | sel l => obtain ⟨-, -, -, -, -, hcur, -⟩ := kept; exact hcur
  | rxb b => obtain ⟨-, -, -, hhc, -⟩ := kept; rw [hhc]
  | feed b => obtain ⟨-, -, hhc, -⟩ := kept; rw [hhc]
  | upd now level det => obtain ⟨-, -, -, hhc, -⟩ := kept; rw [hhc]
  | hchg => obtain ⟨-, -, -, hhc, -⟩ := kept; rw [hhc]
  | addp l v => obtain ⟨-, -, -, hhc, -⟩ := kept; rw [hhc]

/-- Settles O41: the first clause is `exec_keeps_cur`; the second needs `TICK` besides, which is `tick_cur_ne_none`. -/
theorem currentHeightNeverForgotten : Obligations.CurrentHeightNeverForgotten := by
  intro i s t h hreset
  refine ⟨exec_keeps_cur h hreset, fun hknown => ?_⟩
  by_cases htick : ∀ now upN downN, i ≠ .tick now upN downN
  · rwa [exec_keeps_cur h hreset htick]
  · simp only [not_forall, not_not] at htick
    obtain ⟨now, upN, downN, rfl⟩ := htick
    exact tick_cur_ne_none h hknown

end Sys2Proof.Machine
end

section
/-! Requests, refusals and traces (30_encoding.md R84, R88; 60_exceptions.md R220, R236; 70_reset_and_hazards.md R256;
93_implementation_defined.md X1 to X5). An operation is refused exactly in its listed situation, a step exactly in that
of its oldest request, and a trace of requests has the composed effect of its operations. -/

namespace Sys2Proof.Machine

/-! ## Operations out of boot order or out of the clock premise -/

/-- R256: before the first `RESET` every other operation is refused. -/
theorem exec_of_unbuilt {i : Instr} {s : State} (hboot : s.boot = .unbuilt) (hreset : notReset i) :
    exec i s = .refused .beforeReset := by
  cases i with
  | reset now => exact absurd rfl (hreset now)
  | init => simp only [exec, execInit, hboot]
  | tick now upN downN => simp only [exec, execTick, hboot]
  | addp l v => exact exec_addp_of_unbuilt hboot l v
  | _ => exact afterReset_unbuilt hboot _

/-- R256: `TICK` before `INIT`. -/
theorem exec_tick_of_configuring {s : State} (hboot : s.boot = .configuring) (now : Nat) (upN downN : Bool) :
    exec (.tick now upN downN) s = .refused .tickBeforeInit := by
  simp only [exec, execTick, hboot]

/-- R256: a second `INIT`. -/
theorem exec_init_of_running {s : State} (hboot : s.boot = .running) : exec .init s = .refused .initTwice := by
  simp only [exec, execInit, hboot]

/-- R236: a `TICK` or `UPD` in boot order looks at its time first. -/
theorem exec_of_premisedTime {i : Instr} {now : Nat} {s : State} (h : premisedTime i now s) :
    ∃ k, exec i s = atTime now s k := by
  obtain ⟨hboot, upN, downN, rfl⟩ | ⟨hboot, level, det, rfl⟩ := h
  · exact ⟨tickBody now upN downN, by simp only [exec, execTick, hboot]⟩
  · exact ⟨_, afterReset_built hboot _⟩

/-- X1 for a `TICK` or `UPD` in boot order. -/
theorem exec_of_wraps {i : Instr} {now : Nat} {s : State} (h : premisedTime i now s)
    (hwraps : 2 ^ s.cfg.timeBits ≤ now + 1000) : exec i s = .refused .clockWrap := by
  obtain ⟨k, hk⟩ := exec_of_premisedTime h
  rw [hk, atTime_wrap hwraps]

/-- X2 for a `TICK` or `UPD` in boot order. -/
theorem exec_of_backwards {i : Instr} {now : Nat} {s : State} (h : premisedTime i now s)
    (hfits : now + 1000 < 2 ^ s.cfg.timeBits) (hback : now < s.lastNow) : exec i s = .refused .clockBackwards := by
  obtain ⟨k, hk⟩ := exec_of_premisedTime h
  rw [hk, atTime_backwards hfits hback]

/-! ## Refusals of an operation -/

/-- R165: an operation that is not one of the others is `RESET`. -/
theorem notReset_or_reset (i : Instr) : notReset i ∨ ∃ now, i = .reset now := by
  cases i with
  | reset now => exact .inr ⟨now, rfl⟩
  | _ => exact .inl nofun

/-- X1, X2, X4, X5: in a listed situation the operation is refused. -/
theorem refused_of_situation {i : Instr} {s : State} {r : Refusal} (h : refusalSituation i s r) :
    exec i s = .refused r := by
  cases r with
  | clockWrap =>
    obtain ⟨now, hwraps, rfl | htime⟩ := h
    · exact exec_reset_of_wraps hwraps
    · exact exec_of_wraps htime hwraps
  | clockBackwards =>
    obtain ⟨now, hfits, hback, htime⟩ := h
    exact exec_of_backwards htime hfits hback
  | beforeReset => exact exec_of_unbuilt h.1 h.2
  | tickBeforeInit =>
    obtain ⟨hboot, now, upN, downN, rfl⟩ := h
    exact exec_tick_of_configuring hboot now upN downN
  | initTwice =>
    obtain ⟨hboot, rfl⟩ := h
    exact exec_init_of_running hboot
  | addpAfterInit =>
    obtain ⟨hboot, l, v, rfl⟩ := h
    exact exec_addp_of_running hboot l v
  | targetOutOfRange =>
    obtain ⟨hboot, v, rfl, hout⟩ | ⟨hboot, l, rfl, hout⟩ | ⟨hboot, now, upN, downN, rfl, hclock, hout⟩ := h
    · rw [exec_sett_of_built hboot]
      exact setTarget_eq_refused.mpr ⟨hout, rfl⟩
    · rw [exec_sel_of_built hboot]
      exact select_eq_refused.mpr ⟨hout, rfl⟩
    · rw [exec_tick_of_premises hboot hclock]
      exact tickBody_eq_refused.mpr ⟨hout, rfl⟩
  | _ => exact h.elim

/-- X1, X2 and whatever the body is refused for. -/
theorem situation_of_premisedTime {i : Instr} {now : Nat} {s : State} {k : State → Result} {r : Refusal}
    (htime : premisedTime i now s) (h : atTime now s k = .refused r)
    (hbody : clockOk now s → k { s with lastNow := now } = .refused r → refusalSituation i s r) :
    refusalSituation i s r := by
  obtain ⟨hwraps, rfl⟩ | ⟨hfits, hback, rfl⟩ | ⟨hclock, hrefused⟩ := atTime_eq_refused.mp h
  · exact ⟨now, hwraps, .inr htime⟩
  · exact ⟨now, hfits, hback, htime⟩
  · exact hbody hclock hrefused

/-- X1, X2, X4, X5 for an operation after the first `RESET`. -/
theorem situation_of_refused_built {i : Instr} {s : State} {r : Refusal} (hboot : s.boot ≠ .unbuilt)
    (hreset : notReset i) (h : exec i s = .refused r) : refusalSituation i s r := by
  cases i with
  | reset now => exact absurd rfl (hreset now)
  | init =>
    cases hb : s.boot with
    | unbuilt => exact absurd hb hboot
    | configuring => exact absurd ((exec_init_of_configuring hb).symm.trans h) nofun
    | running =>
      obtain rfl := Host.Outcome.refused.inj ((exec_init_of_running hb).symm.trans h)
      exact ⟨hb, rfl⟩
  | tick now upN downN =>
    cases hb : s.boot with
    | unbuilt => exact absurd hb hboot
    | configuring =>
      obtain rfl := Host.Outcome.refused.inj ((exec_tick_of_configuring hb now upN downN).symm.trans h)
      exact ⟨hb, now, upN, downN, rfl⟩
    | running =>
      simp only [exec, execTick, hb] at h
      refine situation_of_premisedTime (.inl ⟨hb, upN, downN, rfl⟩) h fun hclock hrefused => ?_
      obtain ⟨hout, rfl⟩ := tickBody_eq_refused.mp hrefused
      exact .inr (.inr ⟨hb, now, upN, downN, rfl, hclock, hout⟩)
  | upd now level det =>
    exact situation_of_premisedTime (.inr ⟨hboot, level, det, rfl⟩) ((afterReset_built hboot _).symm.trans h) nofun
  | sett v =>
    rw [exec_sett_of_built hboot] at h
    obtain ⟨hout, rfl⟩ := setTarget_eq_refused.mp h
    exact .inl ⟨hboot, v, rfl, hout⟩
  | sel l =>
    rw [exec_sel_of_built hboot] at h
    obtain ⟨hout, rfl⟩ := select_eq_refused.mp h
    exact .inr (.inl ⟨hboot, l, rfl, hout⟩)
  | addp l v =>
    cases hb : s.boot with
    | unbuilt => exact absurd hb hboot
    | configuring => exact absurd ((exec_addp_of_configuring hb l v).symm.trans h) nofun
    | running =>
      obtain rfl := Host.Outcome.refused.inj ((exec_addp_of_running hb l v).symm.trans h)
      exact ⟨hb, l, v, rfl⟩
  | _ => exact absurd ((afterReset_built hboot _).symm.trans h) nofun

/-- X1, X2, X4, X5: an operation that is refused is in its listed situation. -/
theorem situation_of_refused {i : Instr} {s : State} {r : Refusal} (h : exec i s = .refused r) :
    refusalSituation i s r := by
  obtain hreset | ⟨now, rfl⟩ := notReset_or_reset i
  · by_cases hboot : s.boot = .unbuilt
    · obtain rfl := Host.Outcome.refused.inj ((exec_of_unbuilt hboot hreset).symm.trans h)
      exact ⟨hboot, hreset⟩
    · exact situation_of_refused_built hboot hreset h
  · by_cases hfits : now + 1000 < 2 ^ s.cfg.timeBits
    · exact absurd ((exec_reset_of_fits hfits).symm.trans h) nofun
    · have hwraps := Nat.not_lt.mp hfits
      obtain rfl := Host.Outcome.refused.inj ((exec_reset_of_wraps hwraps).symm.trans h)
      exact ⟨now, hwraps, .inl rfl⟩

/-! ## Refusals of a step -/

/-- The situation in which a request asks for no operation, for each name (R84, R88). -/
def unreadable (bits : Nat) (q : Request) (r : Refusal) : Prop :=
  (∃ w, q = .word w ∧ bits ≠ 32 ∧ r = .noEncoding) ∨
  (∃ w, q = .word w ∧ bits = 32 ∧ ReservedOpcode (opField w) ∧ r = .reservedOpcode) ∨
  (∃ w, q = .word w ∧ bits = 32 ∧
    (∃ row : Instr, opField w = opField row.matchBits ∧ w &&& row.maskBits ≠ row.matchBits) ∧ r = .mustBeZero)

/-- R84, R88: a word that does not decode, where `TIME_BITS` is 32. -/
theorem readRequest_of_decode_error {w : Command} {e : DecodeError} (h : decode w = .error e) :
    readRequest 32 (.word w) = .error (refusalOf e) := by
  simp only [readRequest, readWord, wordTimeBits, if_true, h]

/-- R84, R88: why a request is not read as an operation. -/
theorem readRequest_eq_error {bits : Nat} {q : Request} {r : Refusal} :
    readRequest bits q = .error r ↔ unreadable bits q r := by
  constructor
  · intro h
    cases q with
    | op i => exact absurd h nofun
    | word w =>
      by_cases hbits : bits = 32
      · subst hbits
        cases hdecode : decode w with
        | ok i =>
          exact absurd (h.symm.trans (readRequest_eq_ok.mpr (.inr ⟨w, rfl, rfl, hdecode⟩))) nofun
        | error e =>
          obtain rfl := Except.error.inj ((readRequest_of_decode_error hdecode).symm.trans h)
          obtain ⟨hreserved, rfl⟩ | ⟨⟨row, hop, hmask⟩, rfl⟩ := decode_eq_error_iff.mp hdecode
          · exact .inr (.inl ⟨w, rfl, rfl, hreserved, rfl⟩)
          · exact .inr (.inr ⟨w, rfl, rfl, ⟨row, hop.trans (opField_matchBits row).symm, hmask⟩, rfl⟩)
      · have dropped : readRequest bits (.word w) = .error .noEncoding := if_neg hbits
        obtain rfl := Except.error.inj (dropped.symm.trans h)
        exact .inl ⟨w, rfl, hbits, rfl⟩
  · rintro (⟨w, rfl, hbits, rfl⟩ | ⟨w, rfl, rfl, hreserved, rfl⟩ | ⟨w, rfl, rfl, ⟨row, hop, hmask⟩, rfl⟩)
    · exact if_neg hbits
    · exact readRequest_of_decode_error (decode_of_reserved hreserved)
    · exact readRequest_of_decode_error
        (decode_eq_error_iff.mpr (.inr ⟨⟨row, hop.trans (opField_matchBits row), hmask⟩, rfl⟩))

/-- A step whose oldest request asks for an operation. -/
theorem step_of_asksFor {s : State} {q : Request} {rest : List Request} {i : Instr} (hcmds : s.cmds = q :: rest)
    (h : asksFor s.cfg.timeBits q i) : step s = exec i { s with cmds := rest } := by
  rw [step_request hcmds, readRequest_eq_ok.mpr h]

/-- A step whose oldest request asks for none. -/
theorem step_of_unreadable {s : State} {q : Request} {rest : List Request} {r : Refusal} (hcmds : s.cmds = q :: rest)
    (h : unreadable s.cfg.timeBits q r) : step s = .refused r := by
  rw [step_request hcmds, readRequest_eq_error.mpr h]

/-- The two parts of a step's situation: the request asks for no operation, or for one that is refused. -/
theorem stepRefusal_iff {s : State} {r : Refusal} :
    stepRefusal s r ↔ ∃ q rest, s.cmds = q :: rest ∧
      (unreadable s.cfg.timeBits q r ∨
        ∃ i, asksFor s.cfg.timeBits q i ∧ refusalSituation i { s with cmds := rest } r) := by
  unfold stepRefusal unreadable
  simp only [or_assoc]
  rfl

/-- X1 to X5: a step is refused exactly in its listed situation. -/
theorem step_eq_refused_iff {s : State} {r : Refusal} : step s = .refused r ↔ stepRefusal s r := by
  rw [stepRefusal_iff]
  constructor
  · intro h
    cases hcmds : s.cmds with
    | nil => exact absurd ((step_none hcmds).symm.trans h) nofun
    | cons q rest =>
      refine ⟨q, rest, rfl, ?_⟩
      cases hread : readRequest s.cfg.timeBits q with
      | error r' =>
        have hunreadable := readRequest_eq_error.mp hread
        obtain rfl := Host.Outcome.refused.inj ((step_of_unreadable hcmds hunreadable).symm.trans h)
        exact .inl hunreadable
      | ok i =>
        have hasks := readRequest_eq_ok.mp hread
        exact .inr ⟨i, hasks, situation_of_refused ((step_of_asksFor hcmds hasks).symm.trans h)⟩
  · rintro ⟨q, rest, hcmds, hunreadable | ⟨i, hasks, hsituation⟩⟩
    · exact step_of_unreadable hcmds hunreadable
    · rw [step_of_asksFor hcmds hasks]
      exact refused_of_situation hsituation

/-! ## Traces of requests -/

/-- R70: requests that ask for the operations of a trace, one step each, have the composed effect of the operations. -/
theorem steps_of_requests {ask : Instr → Request} (trace : List Instr) (s : State) (hcmds : s.cmds = [])
    (hasks : ∀ i ∈ trace, asksFor s.cfg.timeBits (ask i) i) :
    steps trace.length { s with cmds := trace.map ask } = execAll trace s := by
  induction trace generalizing s with
  | nil => exact congrArg Host.Outcome.next (by rw [List.map_nil, ← hcmds])
  | cons i rest ih =>
    have first : step { s with cmds := (i :: rest).map ask } = withCmds (rest.map ask) (exec i s) :=
      (step_of_asksFor (s := { s with cmds := (i :: rest).map ask }) (List.map_cons ..)
        (hasks i List.mem_cons_self)).trans (exec_cmds i s _)
    rw [List.length_cons, steps, execAll, first]
    cases hexec : exec i s with
    | next t =>
      obtain ⟨hcfg, hcmds', -⟩ := operationsKeepToTheirGroups i s t hexec
      exact ih t (hcmds'.trans hcmds) fun j hj => hcfg ▸ hasks j (List.mem_cons_of_mem i hj)
    | fault f => exact nomatch f
    | refused r => rfl

/-! ## Well-formed traces -/

/-- Whether `INIT` has occurred since the last `RESET`, as a trace counts it (R256). -/
def inited (s : State) : Bool := decide (s.boot = .running)

theorem inited_of_running {s : State} (h : s.boot = .running) : inited s = true := decide_eq_true h

theorem inited_of_configuring {s : State} (h : s.boot = .configuring) : inited s = false := by
  rw [inited, h]
  rfl

/-- The rest of a trace, judged where the state `s` stands (R256). -/
def restWellFormed (s : State) (rest : List Instr) : Bool :=
  traceTailWellFormed s.cfg.timeBits (inited s) s.lastNow rest

/-- An operation that a trace judges by nothing keeps the position of the trace. -/
theorem restWellFormed_congr {s t : State} (hcfg : t.cfg = s.cfg) (hboot : t.boot = s.boot)
    (hlast : t.lastNow = s.lastNow) (rest : List Instr) : restWellFormed t rest = restWellFormed s rest := by
  rw [restWellFormed, restWellFormed, inited, inited, hcfg, hboot, hlast]

/-- R236 on one time, as a trace judges it. -/
theorem timeFits_of_clockOk {now : Nat} {s : State} (h : clockOk now s) :
    timeFits s.cfg.timeBits lockoutMs now = true ∧ decide (s.lastNow ≤ now) = true :=
  ⟨(timeFits_iff _ lockoutMs now).mpr h.1, decide_eq_true h.2⟩

/-- R256: an operation that answers a next state is well-formed where it stands, and the rest of the trace is judged
where that state stands. -/
theorem restWellFormed_of_next {i : Instr} {s t : State} (hboot : s.boot ≠ .unbuilt) (h : exec i s = .next t)
    (rest : List Instr) : restWellFormed s (i :: rest) = restWellFormed t rest ∧ t.boot ≠ .unbuilt := by
  obtain ⟨hcfg, -, kept⟩ := operationsKeepToTheirGroups i s t h
  cases i with
  | reset now =>
    obtain ⟨hfits, rfl⟩ := execReset_eq_next h
    have fits : timeFits s.cfg.timeBits bootLockoutMs now = true := (timeFits_iff _ bootLockoutMs now).mpr hfits
    exact ⟨by rw [restWellFormed, traceTail_reset, fits]; rfl, nofun⟩
  | init =>
    obtain ⟨hconf, rfl⟩ := execInit_eq_next h
    exact ⟨by rw [restWellFormed, traceTail_init, inited_of_configuring hconf]; rfl, nofun⟩
  | tick now upN downN =>
    obtain ⟨hrun, hclock, -⟩ := execTick_eq_next h
    obtain ⟨hfits, hmono⟩ := timeFits_of_clockOk hclock
    obtain ⟨-, -, hboot', -⟩ := kept
    have hrun' := hboot'.trans hrun
    refine ⟨?_, by rw [hrun']; nofun⟩
    rw [restWellFormed, traceTail_tick, hfits, hmono, inited_of_running hrun, restWellFormed, inited_of_running hrun',
      tick_lastNow h, hcfg]
    rfl
  | upd now level det =>
    obtain ⟨-, hclock, rfl⟩ := execUpd_eq_next h
    obtain ⟨hfits, hmono⟩ := timeFits_of_clockOk hclock
    obtain ⟨-, -, -, -, -, -, hboot'⟩ := kept
    refine ⟨?_, hboot' ▸ hboot⟩
    rw [restWellFormed, traceTail_upd, hfits, hmono, restWellFormed, hcfg, inited, inited, hboot']
    rfl
  | addp l v =>
    obtain ⟨hconf, rfl⟩ := execAddp_eq_next h
    refine ⟨?_, hboot⟩
    rw [restWellFormed, traceTail_addp, inited_of_configuring hconf, restWellFormed,
      show inited (appendPreset l v s) = false from inited_of_configuring hconf]
    rfl
  | rxb b =>
    obtain ⟨-, -, -, -, -, -, hboot', hlast⟩ := kept
    exact ⟨(restWellFormed_congr hcfg hboot' hlast rest).symm, hboot' ▸ hboot⟩
  | slowtick =>
    obtain ⟨-, -, -, -, -, -, -, -, hboot', hlast⟩ := kept
    exact ⟨(restWellFormed_congr hcfg hboot' hlast rest).symm, hboot' ▸ hboot⟩
  | sett v =>
    obtain ⟨-, -, -, -, -, -, -, -, -, hboot', hlast⟩ := kept
    exact ⟨(restWellFormed_congr hcfg hboot' hlast rest).symm, hboot' ▸ hboot⟩
  | feed b =>
    obtain ⟨-, -, -, -, -, hboot', hlast⟩ := kept
    exact ⟨(restWellFormed_congr hcfg hboot' hlast rest).symm, hboot' ▸ hboot⟩
  | sel l =>
    obtain ⟨-, -, -, -, -, -, -, -, hboot', hlast⟩ := kept
    exact ⟨(restWellFormed_congr hcfg hboot' hlast rest).symm, hboot' ▸ hboot⟩
  | hchg =>
    obtain ⟨-, -, -, -, -, -, hboot', hlast⟩ := kept
    exact ⟨(restWellFormed_congr hcfg hboot' hlast rest).symm, hboot' ▸ hboot⟩

/-- A time out of the clock premise is not one of a well-formed trace. -/
theorem timeFits_of_wraps {bits now k : Nat} (h : 2 ^ bits ≤ now + k) : timeFits bits k now = false :=
  decide_eq_false (Nat.not_lt.mpr h)

/-- R256, X1, X2: a `TICK` or `UPD` out of the clock premise is not well-formed where it stands. -/
theorem restWellFormed_of_badTime {i : Instr} {now : Nat} {s : State} (htime : premisedTime i now s)
    (hbad : 2 ^ s.cfg.timeBits ≤ now + 1000 ∨ now < s.lastNow) (rest : List Instr) :
    restWellFormed s (i :: rest) = false := by
  have bad : (timeFits s.cfg.timeBits lockoutMs now && decide (s.lastNow ≤ now)) = false := by
    obtain hwraps | hback := hbad
    · rw [timeFits_of_wraps (k := lockoutMs) hwraps, Bool.false_and]
    · rw [decide_eq_false (Nat.not_le.mpr hback), Bool.and_false]
  obtain ⟨hrun, upN, downN, rfl⟩ | ⟨-, level, det, rfl⟩ := htime
  · rw [restWellFormed, traceTail_tick, inited_of_running hrun, Bool.true_and, ← Bool.and_assoc, bad, Bool.false_and]
  · rw [restWellFormed, traceTail_upd, ← Bool.and_assoc, bad, Bool.false_and]

/-- R256: after the first `RESET` an operation that is refused, but for a converted target, is not well-formed where it
stands. -/
theorem restWellFormed_of_refused {i : Instr} {s : State} {r : Refusal} (hboot : s.boot ≠ .unbuilt)
    (h : exec i s = .refused r) (rest : List Instr) :
    r = .targetOutOfRange ∨ restWellFormed s (i :: rest) = false := by
  have situation := situation_of_refused h
  cases r with
  | targetOutOfRange => exact .inl rfl
  | clockWrap =>
    obtain ⟨now, hwraps, rfl | htime⟩ := situation
    · have wraps : timeFits s.cfg.timeBits bootLockoutMs now = false := timeFits_of_wraps hwraps
      exact .inr (by rw [restWellFormed, traceTail_reset, wraps, Bool.false_and])
    · exact .inr (restWellFormed_of_badTime htime (.inl hwraps) rest)
  | clockBackwards =>
    obtain ⟨now, -, hback, htime⟩ := situation
    exact .inr (restWellFormed_of_badTime htime (.inr hback) rest)
  | beforeReset => exact absurd situation.1 hboot
  | tickBeforeInit =>
    obtain ⟨hconf, now, upN, downN, rfl⟩ := situation
    exact .inr (by rw [restWellFormed, traceTail_tick, inited_of_configuring hconf]; exact Bool.and_false _)
  | initTwice =>
    obtain ⟨hrun, rfl⟩ := situation
    exact .inr (by rw [restWellFormed, traceTail_init, inited_of_running hrun]; rfl)
  | addpAfterInit =>
    obtain ⟨hrun, l, v, rfl⟩ := situation
    exact .inr (by rw [restWellFormed, traceTail_addp, inited_of_running hrun]; rfl)
  | _ => exact situation.elim

/-- A trace runs to its end, or is refused for a converted target. -/
def RunsOrLeavesRange (o : Result) : Prop := (∃ t, o = .next t) ∨ o = .refused .targetOutOfRange

/-- R256: after the first `RESET` the traces that run to their end are well-formed where they stand, and those run
unless a converted target leaves the range. -/
theorem execAll_restWellFormed (trace : List Instr) (s : State) (hboot : s.boot ≠ .unbuilt) :
    ((∃ t, execAll trace s = .next t) → restWellFormed s trace = true) ∧
    (restWellFormed s trace = true → RunsOrLeavesRange (execAll trace s)) := by
  induction trace generalizing s with
  | nil => exact ⟨fun _ => rfl, fun _ => .inl ⟨s, rfl⟩⟩
  | cons i rest ih =>
    rw [execAll]
    cases hexec : exec i s with
    | next u =>
      obtain ⟨judged, hbuilt⟩ := restWellFormed_of_next hboot hexec rest
      rw [andThen_next, judged]
      exact ih u hbuilt
    | fault f => exact nomatch f
    | refused r =>
      rw [andThen_refused]
      refine ⟨fun ⟨_, hruns⟩ => (nomatch hruns), fun hwf => ?_⟩
      obtain rfl | illFormed := restWellFormed_of_refused hboot hexec rest
      · exact .inr rfl
      · exact absurd (illFormed.symm.trans hwf) nofun

/-- R256: a trace that does not start with `RESET` is no trace. -/
theorem traceWellFormed_of_notReset (bits : Nat) {i : Instr} (h : notReset i) (rest : List Instr) :
    traceWellFormed bits (i :: rest) = false := by
  cases i with
  | reset now => exact absurd rfl (h now)
  | _ => rfl

/-- R256: from before the first `RESET`, as `execAll_restWellFormed`. -/
theorem execAll_traceWellFormed (trace : List Instr) (s : State) (hboot : s.boot = .unbuilt) :
    ((∃ t, execAll trace s = .next t) → traceWellFormed s.cfg.timeBits trace = true) ∧
    (traceWellFormed s.cfg.timeBits trace = true → RunsOrLeavesRange (execAll trace s)) := by
  cases trace with
  | nil => exact ⟨fun _ => rfl, fun _ => .inl ⟨s, rfl⟩⟩
  | cons i rest =>
    obtain hreset | ⟨now, rfl⟩ := notReset_or_reset i
    · rw [execAll, exec_of_unbuilt hboot hreset, traceWellFormed_of_notReset _ hreset]
      exact ⟨fun ⟨_, hruns⟩ => (nomatch hruns), fun hwf => absurd hwf Bool.false_ne_true⟩
    · rw [execAll, trace_reset]
      by_cases hfits : now + 1000 < 2 ^ s.cfg.timeBits
      · rw [exec_reset_of_fits hfits, andThen_next, (timeFits_iff _ bootLockoutMs now).mpr hfits, Bool.true_and]
        exact execAll_restWellFormed rest (constructed now s) nofun
      · have hwraps := Nat.not_lt.mp hfits
        rw [exec_reset_of_wraps hwraps, timeFits_of_wraps (k := bootLockoutMs) hwraps]
        exact ⟨fun ⟨_, hruns⟩ => (nomatch hruns), fun hwf => absurd hwf Bool.false_ne_true⟩

/-! ## The statements -/

/-- Settles O5: the three reasons for which a word is not read. -/
theorem invalidWordRefused : Obligations.InvalidWordRefused := by
  intro s w rest hcmds
  refine ⟨fun hbits => ?dropped, fun hbits hreserved => ?reserved, fun hbits row hop hmask => ?zeros⟩
  all_goals refine step_of_unreadable hcmds ?_
  case dropped => exact .inl ⟨w, rfl, hbits, rfl⟩
  case reserved => exact .inr (.inl ⟨w, rfl, hbits, hreserved, rfl⟩)
  case zeros => exact .inr (.inr ⟨w, rfl, hbits, ⟨row, hop, hmask⟩, rfl⟩)

/-- Settles O7: both forms of request are `step_of_asksFor`. -/
theorem stepRunsDecodedCommand : Obligations.StepRunsDecodedCommand :=
  ⟨fun _ w _ _ hcmds hbits hdecode => step_of_asksFor hcmds (.inr ⟨w, rfl, hbits, hdecode⟩),
    fun _ _ _ hcmds => step_of_asksFor hcmds (.inl rfl)⟩

/-- Settles O8. -/
theorem stepWaitsWithoutCommand : Obligations.StepWaitsWithoutCommand :=
  fun _ hcmds => step_none hcmds

/-- Settles O9: an operation asks for itself, and so does its word, which decodes to it (`decode_encode`). -/
theorem encodedTraceRunsInOrder : Obligations.EncodedTraceRunsInOrder := by
  intro trace s hcmds
  refine ⟨steps_of_requests trace s hcmds fun i _ => .inl rfl, fun hbits hfits => ?words⟩
  case words =>
    exact steps_of_requests trace s hcmds fun i hi => .inr ⟨encode i, rfl, hbits, decode_encode (hfits i hi)⟩

/-- Settles O24: each clause is a listed situation. -/
theorem outOfOrderRefused : Obligations.OutOfOrderRefused := by
  refine ⟨fun i s hboot hreset => exec_of_unbuilt hboot hreset,
    fun s now u d hboot => exec_tick_of_configuring hboot now u d, fun s hboot => exec_init_of_running hboot,
    fun s l h hboot => exec_addp_of_running hboot l h, fun s now hwraps => exec_reset_of_wraps hwraps,
    fun s now u d hboot hwraps => exec_of_wraps ?tick hwraps, fun s now l d hboot hwraps => exec_of_wraps ?upd hwraps,
    fun s now u d hboot hfits hback => exec_of_backwards ?tickBack hfits hback,
    fun s now l d hboot hfits hback => exec_of_backwards ?updBack hfits hback⟩
  case tick | tickBack => exact .inl ⟨hboot, u, d, rfl⟩
  case upd | updBack => exact .inr ⟨hboot, l, d, rfl⟩

/-- Settles O25. -/
theorem refusedOnlyWhereListed : Obligations.RefusedOnlyWhereListed :=
  fun _ _ _ h => situation_of_refused h

/-- Settles O26. -/
theorem refusedWhereverListed : Obligations.RefusedWhereverListed :=
  fun _ _ _ h => refused_of_situation h

/-- Settles O27: a step has one answer, and `step_eq_refused_iff` names the situation of a refusal. -/
theorem stepAnswersNextOrListedRefusal : Obligations.StepAnswersNextOrListedRefusal := by
  intro s
  simp only [← step_eq_refused_iff]
  cases step s with
  | next t => exact .inl ⟨⟨t, rfl⟩, nofun⟩
  | fault f => exact nomatch f
  | refused r => exact .inr ⟨r, rfl, fun r' => by rw [Host.Outcome.refused.injEq, eq_comm]⟩

/-- Settles O28: the steps are the composed effect of the operations, and `execAll_traceWellFormed` says which traces
run. -/
theorem wellFormedTracesAreTheOnesThatRun : Obligations.WellFormedTracesAreTheOnesThatRun := by
  intro trace s hboot hcmds
  rw [steps_of_requests trace s hcmds fun i _ => .inl rfl]
  exact execAll_traceWellFormed trace s hboot

end Sys2Proof.Machine
end

section
/-! Proofs about what a detector reports over time (42_edge_detector.md R132 to R141). `Upd` looks at three kinds of
level: the same as before, a rising edge, a falling edge; the order of the edge times (10_state.md R33) and the reports
of a hold are followed through these. -/

namespace Sys2Proof.Machine

/-! ## The captured edge -/

theorem captureEdge_same {level : Bool} {b : Btn} (h : level = b.level) (now : Nat) : captureEdge level now b = b :=
  if_pos h

theorem captureEdge_rising {b : Btn} (h : b.level = false) (now : Nat) :
    captureEdge true now b = { b with prevRise := b.rise, rise := now, level := true } := by
  rw [captureEdge_eq, h]
  rfl

theorem captureEdge_falling {b : Btn} (h : b.level = true) (now : Nat) :
    captureEdge false now b = { b with prevFall := b.fall, fall := now, level := false } := by
  rw [captureEdge_eq, h]
  rfl

/-- The three kinds of level. -/
theorem level_cases (level : Bool) (b : Btn) :
    level = b.level ∨ (level = true ∧ b.level = false) ∨ (level = false ∧ b.level = true) := by
  cases level <;> cases b.level <;> simp

/-! ## What `UPD` leaves and logs -/

/-- R134: a press state already dispatched is not dispatched again. -/
theorem upd_press_of_dispatched {level : Bool} {now : Nat} {b : Btn}
    (h : pressed now (captureEdge level now b) = b.disp) : (upd level now b).press = none := by
  rw [upd_eq]
  exact if_pos h

/-- R133, R134: the press state is what was dispatched last. -/
theorem upd_disp (level : Bool) (now : Nat) (b : Btn) :
    (upd level now b).btn.disp = pressed now (captureEdge level now b) := by
  rw [upd_eq]

/-- R136: the double-click's own deadline, or the old one. -/
theorem upd_lockout_cases (level : Bool) (now : Nat) (b : Btn) :
    (upd level now b).btn.lockout = now + 1000 ∨ (upd level now b).btn.lockout = b.lockout := by
  rw [upd_eq]
  dsimp only
  split
  · exact .inl rfl
  · exact .inr rfl

/-- The level and the stamps are those of the captured edge. -/
theorem upd_stamps (level : Bool) (now : Nat) (b : Btn) :
    (upd level now b).btn.level = level ∧
    (upd level now b).btn.rise = (captureEdge level now b).rise ∧
    (upd level now b).btn.fall = (captureEdge level now b).fall := by
  rw [upd_eq]
  exact ⟨captureEdge_level level now b, rfl, rfl⟩

/-- R133: with the falling edge not before the rising one, a button is not held. -/
theorem pressed_of_released {b : Btn} (h : b.rise ≤ b.fall) (now : Nat) : pressed now b = false := by
  rw [pressed_eq]
  exact decide_eq_false fun held => absurd held.1 (Nat.not_lt.mpr h)

/-- The press events among what an `UPD` logs. -/
theorem pressEvents_upd (det : Button) (press : Option Bool) (dclick : Bool) :
    pressEvents det (press.toList.map (Event.press det) ++ if dclick = true then [.dclick det] else []) =
      press.toList := by
  cases press <;> cases dclick <;> simp [pressEvents]

/-- R142: what an `UPD` that answers a next state did to its own detector, the clock and the press events. -/
theorem exec_upd_eq_next {now : Nat} {level : Bool} {det : Button} {s t : State}
    (h : exec (.upd now level det) s = .next t) :
    s.lastNow ≤ now ∧ t.lastNow = now ∧ State.btn t det = (upd level now (State.btn s det)).btn ∧
      pressEvents det t.out = pressEvents det s.out ++ (upd level now (State.btn s det)).press.toList := by
  obtain ⟨-, hclock, rfl⟩ := execUpd_eq_next h
  refine ⟨hclock.2, rfl, btn_setBtn_time_out .., ?_⟩
  rw [List.append_assoc, pressEvents_append, pressEvents_upd]

/-- R142: a double-click is logged exactly when `Upd` answers one. -/
theorem dclick_mem_iff {now : Nat} {level : Bool} {det : Button} {s t : State}
    (h : exec (.upd now level det) s = .next t) :
    Event.dclick det ∈ t.out.drop s.out.length ↔ (upd level now (State.btn s det)).dclick = true := by
  obtain ⟨-, -, rfl⟩ := execUpd_eq_next h
  dsimp only
  rw [List.append_assoc, List.drop_left]
  cases (upd level now (State.btn s det)).dclick <;> simp

/-! ## The order of the edge times -/

/-- R33: times ordered up to `last` are ordered up to any later time. -/
theorem ordered_of_le {last now : Nat} {b : Btn} (h : Btn.ordered last b) (hle : last ≤ now) : Btn.ordered now b := by
  obtain ⟨hrise, hfall, hdown, hup, hriseLast, hfallLast, hlockout, hfired⟩ := h
  exact ⟨hrise, hfall, hdown, hup, hriseLast.trans hle, hfallLast.trans hle,
    hlockout.trans (Nat.add_le_add_right hle 1000), hfired⟩

/-- R46: a detector as `RESET` leaves it. -/
theorem ordered_reset (now : Nat) : Btn.ordered now (Btn.reset (now + bootLockoutMs)) :=
  ⟨Nat.zero_le _, Nat.zero_le _, nofun, fun _ => Nat.zero_le _, Nat.zero_le _, Nat.zero_le _, Nat.le_refl _,
    fun _ => Nat.zero_le _⟩

/-- R139: under the order of R33 only a rising edge fires a double-click: elsewhere (a) and (c) of R136 do not both
hold, and there (b) follows from (a). -/
theorem dclick_iff_of_ordered {last now : Nat} {b : Btn} (h : Btn.ordered last b) (level : Bool) :
    (upd level now b).dclick = true ↔
      level = true ∧ b.level = false ∧ now < b.rise + 1000 ∧ b.rise > b.lockout := by
  obtain ⟨hrise, hfall, hdown, hup, hriseLast, hfallLast, hlockout, hfired⟩ := h
  rw [upd_eq]
  dsimp only
  rw [doubleClick_eq, decide_eq_true_iff]
  obtain hsame | ⟨rfl, hlevel⟩ | ⟨rfl, hlevel⟩ := level_cases level b
  · rw [captureEdge_same hsame]
    refine ⟨fun ⟨hgap, _, hunlocked⟩ => by omega, fun ⟨htrue, hfalse, _⟩ => ?_⟩
    exact absurd (htrue.symm.trans (hsame.trans hfalse)) nofun
  · rw [captureEdge_rising hlevel]
    have hreleased := hup hlevel
    simp only [hlevel, true_and]
    omega
  · rw [captureEdge_falling hlevel]
    refine ⟨fun ⟨hgap, _, hunlocked⟩ => ?_, fun ⟨hfalse, _⟩ => absurd hfalse nofun⟩
    dsimp only at hgap hunlocked
    omega

/-- R33: the captured edge keeps the order, up to the double-click that may be due. -/
theorem captureEdge_ordered {now : Nat} {b : Btn} (h : Btn.ordered now b) (level : Bool) :
    let e := captureEdge level now b
    e.prevRise ≤ e.rise ∧ e.prevFall ≤ e.fall ∧
    (e.level = true → e.prevRise ≤ e.fall ∧ e.fall ≤ e.rise) ∧ (e.level = false → e.rise ≤ e.fall) ∧
    e.rise ≤ now ∧ e.fall ≤ now ∧
    (doubleClick now e = false → e.rise < e.prevRise + 1000 → e.prevRise ≤ e.lockout) := by
  obtain ⟨hrise, hfall, hdown, hup, hriseLast, hfallLast, hlockout, hfired⟩ := h
  dsimp only
  rw [doubleClick_eq, decide_eq_false_iff_not]
  obtain hsame | ⟨rfl, hlevel⟩ | ⟨rfl, hlevel⟩ := level_cases level b
  · rw [captureEdge_same hsame]
    exact ⟨hrise, hfall, hdown, hup, hriseLast, hfallLast, fun _ => hfired⟩
  · have hreleased := hup hlevel
    rw [captureEdge_rising hlevel]
    exact ⟨hriseLast, hfall, fun _ => ⟨hreleased, hfallLast⟩, nofun, Nat.le_refl _, hfallLast,
      fun hquiet hgap => by dsimp only at hquiet hgap ⊢; omega⟩
  · rw [captureEdge_falling hlevel]
    exact ⟨hrise, hfallLast, nofun, fun _ => hriseLast, hriseLast, Nat.le_refl _, fun _ => hfired⟩

/-- R33, R31: `Upd` at the latest time keeps the order; a double-click that fires is locked out. -/
theorem upd_ordered {now : Nat} {b : Btn} (h : Btn.ordered now b) (level : Bool) :
    Btn.ordered now (upd level now b).btn := by
  obtain ⟨hrise, hfall, hdown, hup, hriseLast, hfallLast, hfired⟩ := captureEdge_ordered h level
  obtain ⟨-, -, -, -, -, -, hlockout, -⟩ := h
  rw [upd_eq]
  cases hdclick : doubleClick now (captureEdge level now b) with
  | true =>
    exact ⟨hrise, hfall, hdown, hup, hriseLast, hfallLast, Nat.le_refl _,
      fun _ => (hrise.trans hriseLast).trans (Nat.le_add_right now 1000)⟩
  | false =>
    exact ⟨hrise, hfall, hdown, hup, hriseLast, hfallLast, hlockout,
      fun hgap => captureEdge_lockout level now b ▸ hfired hdclick hgap⟩

/-! ## Lockout deadlines -/

/-- Both deadlines are at least those of `s`, and not more than 1000 after `now`. -/
def LockoutsWithin (s : State) (now : Nat) (u : State) : Prop :=
  ∀ c, (State.btn s c).lockout ≤ (State.btn u c).lockout ∧ (State.btn u c).lockout ≤ now + 1000

/-- R31: no earlier than the latest time, a deadline is within 1000 of it. -/
theorem lockoutsWithin_self {now : Nat} {s : State} (h : EdgesOrdered s) (hle : s.lastNow ≤ now) :
    LockoutsWithin s now s := by
  obtain ⟨⟨-, -, -, -, -, -, hup, -⟩, ⟨-, -, -, -, -, -, hdown, -⟩, -⟩ := h
  have later : s.lastNow + 1000 ≤ now + 1000 := Nat.add_le_add_right hle 1000
  intro c
  cases c with
  | up => exact ⟨Nat.le_refl _, hup.trans later⟩
  | down => exact ⟨Nat.le_refl _, hdown.trans later⟩

/-- R31: an `Upd` raises its own deadline to `now + 1000`, or leaves it. -/
theorem lockoutsWithin_setBtn {now : Nat} {s u : State} (h : LockoutsWithin s now u) (b : Button) (level : Bool) :
    LockoutsWithin s now (State.setBtn u b (upd level now (State.btn u b)).btn) := by
  intro c
  obtain ⟨hlow, hhigh⟩ := h c
  by_cases hc : c = b
  · subst hc
    rw [btn_setBtn_same]
    obtain hnew | hold := upd_lockout_cases level now (State.btn u c)
    · rw [hnew]
      exact ⟨hlow.trans hhigh, Nat.le_refl _⟩
    · rw [hold]
      exact ⟨hlow, hhigh⟩
  · rw [btn_setBtn_other u b c _ hc]
    exact ⟨hlow, hhigh⟩

/-- R31, for `TICK`. -/
theorem tick_lockoutsWithin {now : Nat} {upN downN : Bool} {s t : State} (hs : EdgesOrdered s)
    (h : execTick now upN downN s = .next t) : LockoutsWithin s now t := by
  obtain ⟨-, hclock, -⟩ := execTick_eq_next h
  have before := lockoutsWithin_self hs hclock.2
  refine tick_keeps (P := LockoutsWithin s now) h ?start (fun d u hu => hu) (fun r u hu => hu) (fun u hu => hu)
    (fun l i u _ hu => hu) (fun b l u hu => lockoutsWithin_setBtn hu b l)
  case start =>
    rw [receive_atTime]
    exact before

/-- R21: every operation but `RESET`, `TICK` and `UPD` leaves both detectors. -/
theorem exec_keeps_detectors {i : Instr} {s t : State} (h : exec i s = .next t) (hreset : notReset i)
    (htick : ∀ now upN downN, i ≠ .tick now upN downN) (hupd : ∀ now level det, i ≠ .upd now level det) :
    t.btnUp = s.btnUp ∧ t.btnDown = s.btnDown := by
  obtain ⟨-, -, kept⟩ := operationsKeepToTheirGroups i s t h
  cases i with
  | reset now => exact absurd rfl (hreset now)
  | tick now upN downN => exact absurd rfl (htick now upN downN)
  | upd now level det => exact absurd rfl (hupd now level det)
  | feed b =>
    obtain ⟨hup, hdown, -⟩ := kept
    exact ⟨hup, hdown⟩
  | _ =>
    obtain ⟨-, hup, hdown, -⟩ := kept
    exact ⟨hup, hdown⟩

/-! ## A hold and its release -/

/-- A button held since `t0`, whose last release was before: `long` says whether its PressStart is dispatched, and
`log` are the press events before the hold (R133 to R135). -/
structure Holding (det : Button) (t0 : Nat) (log : List Bool) (long : Bool) (s : State) : Prop where
  level : (State.btn s det).level = true
  rise : (State.btn s det).rise = t0
  fall : (State.btn s det).fall < t0
  disp : (State.btn s det).disp = long
  begun : t0 ≤ s.lastNow
  late : long = true → t0 + 1000 < s.lastNow
  events : pressEvents det s.out = log ++ if long = true then [true] else []

/-- R133: a held button is pressed once `now` is more than 1000 later. -/
theorem pressed_of_held {b : Btn} (h : b.fall < b.rise) (now : Nat) :
    pressed now b = decide (b.rise + 1000 < now) := by
  rw [pressed_eq]
  exact decide_eq_decide.mpr (by omega)

/-- R135: the rising edge itself dispatches nothing. -/
theorem holding_of_edge {det : Button} {t0 : Nat} {s t : State} (hlevel : (State.btn s det).level = false)
    (hdisp : (State.btn s det).disp = false) (hfall : (State.btn s det).fall < t0)
    (h : exec (.upd t0 true det) s = .next t) : Holding det t0 (pressEvents det s.out) false t := by
  obtain ⟨-, hlast, hbtn, hevents⟩ := exec_upd_eq_next h
  have stamps := upd_stamps true t0 (State.btn s det)
  have short : pressed t0 (captureEdge true t0 (State.btn s det)) = false := by
    rw [captureEdge_rising hlevel, pressed_of_held hfall]
    exact decide_eq_false (by dsimp only; omega)
  rw [captureEdge_rising hlevel] at stamps
  obtain ⟨level, rise, fall⟩ := stamps
  refine ⟨by rw [hbtn, level], by rw [hbtn, rise], by rw [hbtn, fall]; exact hfall, by rw [hbtn, upd_disp, short],
    hlast.ge, nofun, ?_⟩
  rw [hevents, upd_press_of_dispatched (short.trans hdisp.symm)]
  rfl

/-- R134, R135: a further sample dispatches PressStart if it is the first one late enough. -/
theorem holding_sample {det : Button} {t0 x : Nat} {log : List Bool} {long : Bool} {s t : State}
    (hs : Holding det t0 log long s) (h : exec (.upd x true det) s = .next t) :
    Holding det t0 log (long || decide (t0 + 1000 < x)) t := by
  obtain ⟨hmono, hlast, hbtn, hevents⟩ := exec_upd_eq_next h
  have held : captureEdge true x (State.btn s det) = State.btn s det := captureEdge_same hs.level.symm x
  obtain ⟨level, rise, fall⟩ := upd_stamps true x (State.btn s det)
  have now_pressed : pressed x (State.btn s det) = (long || decide (t0 + 1000 < x)) := by
    rw [pressed_of_held (hs.rise ▸ hs.fall), hs.rise]
    cases long with
    | false => rw [Bool.false_or]
    | true => exact decide_eq_true ((hs.late rfl).trans_le hmono)
  rw [held] at rise fall
  refine ⟨by rw [hbtn, level], by rw [hbtn, rise, hs.rise], by rw [hbtn, fall]; exact hs.fall,
    by rw [hbtn, upd_disp, held, now_pressed], hlast ▸ hs.begun.trans hmono, fun hlong => ?late, ?events⟩
  case late =>
    rw [hlast]
    rw [← now_pressed, pressed_of_held (hs.rise ▸ hs.fall), hs.rise] at hlong
    exact of_decide_eq_true hlong
  case events =>
    rw [hevents, hs.events, upd_eq, held, now_pressed, hs.disp]
    cases long <;> cases decide (t0 + 1000 < x) <;> simp

/-- R135: the samples of a hold dispatch PressStart once if some sample is late enough. -/
theorem holding_samples {det : Button} {t0 : Nat} {log : List Bool} (ts : List Nat) {long : Bool} {s t : State}
    (hs : Holding det t0 log long s) (h : execAll (ts.map fun x => .upd x true det) s = .next t) :
    Holding det t0 log (long || decide (∃ x ∈ ts, x > t0 + 1000)) t := by
  induction ts generalizing long s with
  | nil =>
    obtain rfl := Host.Outcome.next.inj h
    simpa using hs
  | cons x rest ih =>
    obtain ⟨a, hfirst, hrest⟩ := andThen_eq_next.mp h
    have tail := ih (holding_sample hs hfirst) hrest
    simpa only [Bool.or_assoc, ← Bool.decide_or, List.exists_mem_cons_iff] using tail

/-- R135: the release dispatches PressEnd if PressStart was dispatched. -/
theorem release_of_holding {det : Button} {t0 tEnd : Nat} {log : List Bool} {long : Bool} {s t : State}
    (hs : Holding det t0 log long s) (h : exec (.upd tEnd false det) s = .next t) :
    pressEvents det t.out = pressEvents det s.out ++ if long = true then [false] else [] := by
  obtain ⟨hmono, -, -, hevents⟩ := exec_upd_eq_next h
  have released : pressed tEnd (captureEdge false tEnd (State.btn s det)) = false := by
    rw [captureEdge_falling hs.level]
    exact pressed_of_released (hs.rise ▸ hs.begun.trans hmono) tEnd
  rw [hevents, upd_eq, released, hs.disp]
  cases long <;> rfl

/-! ## A hold that is never reported -/

/-- A held button whose two stamps are equal, with nothing dispatched (R141). -/
def HiddenHold (det : Button) (stamp : Nat) (log : List Bool) (s : State) : Prop :=
  pressEvents det s.out = log ∧ (State.btn s det).disp = false ∧ (State.btn s det).level = true ∧
    (State.btn s det).rise = stamp ∧ (State.btn s det).fall = stamp

/-- R141 (1): a sample of such a hold dispatches nothing and keeps it. -/
theorem hiddenHold_sample {det : Button} {stamp x : Nat} {log : List Bool} {s t : State}
    (hs : HiddenHold det stamp log s) (h : exec (.upd x true det) s = .next t) : HiddenHold det stamp log t := by
  obtain ⟨hlog, hdisp, hlevel, hrise, hfall⟩ := hs
  obtain ⟨-, -, hbtn, hevents⟩ := exec_upd_eq_next h
  have held : captureEdge true x (State.btn s det) = State.btn s det := captureEdge_same hlevel.symm x
  obtain ⟨level, rise, fall⟩ := upd_stamps true x (State.btn s det)
  have hidden : pressed x (captureEdge true x (State.btn s det)) = false := by
    rw [held]
    exact pressed_of_released (hrise.trans hfall.symm).le x
  rw [held] at rise fall
  refine ⟨?_, by rw [hbtn, upd_disp, hidden], by rw [hbtn, level], by rw [hbtn, rise, hrise],
    by rw [hbtn, fall, hfall]⟩
  rw [hevents, upd_press_of_dispatched (hidden.trans hdisp.symm), hlog]
  exact List.append_nil log

/-- R141 (3): the release of such a hold dispatches nothing. -/
theorem release_of_hiddenHold {det : Button} {stamp tEnd : Nat} {log : List Bool} {s t : State}
    (hs : HiddenHold det stamp log s) (hend : stamp ≤ tEnd) (h : exec (.upd tEnd false det) s = .next t) :
    pressEvents det t.out = log ∧ (State.btn t det).disp = false := by
  obtain ⟨hlog, hdisp, hlevel, hrise, -⟩ := hs
  obtain ⟨-, -, hbtn, hevents⟩ := exec_upd_eq_next h
  have released : pressed tEnd (captureEdge false tEnd (State.btn s det)) = false := by
    rw [captureEdge_falling hlevel]
    exact pressed_of_released (hrise ▸ hend) tEnd
  refine ⟨?_, by rw [hbtn, upd_disp, released]⟩
  rw [hevents, upd_press_of_dispatched (released.trans hdisp.symm), hlog]
  exact List.append_nil log

/-! ## An untouched button -/

/-- R134: a released level leaves a detector in its reset state, with nothing to report. -/
theorem upd_reset (now lockout : Nat) :
    upd false now (Btn.reset lockout) = { btn := Btn.reset lockout, press := none, dclick := false } := by
  have same : captureEdge false now (Btn.reset lockout) = Btn.reset lockout :=
    captureEdge_same (b := Btn.reset lockout) rfl now
  have silent : pressed now (Btn.reset lockout) = false := pressed_of_released (Nat.le_refl 0) now
  have locked : doubleClick now (Btn.reset lockout) = false := by
    rw [doubleClick_eq]
    exact decide_eq_false fun ⟨_, _, hunlocked⟩ => Nat.not_lt_zero _ hunlocked
  rw [upd_eq, same, silent, locked]
  rfl

/-- R134, for the whole state. -/
theorem untouched_sample {det : Button} {lockout x : Nat} {s t : State} (hs : State.btn s det = Btn.reset lockout)
    (h : exec (.upd x false det) s = .next t) : t.out = s.out ∧ State.btn t det = Btn.reset lockout := by
  obtain ⟨-, -, rfl⟩ := execUpd_eq_next h
  rw [btn_setBtn_time_out, hs, upd_reset]
  exact ⟨by simp, rfl⟩

/-! ## The statements -/

/-- Settles O15: the log shows the double-click of `Upd`, which `dclick_iff_of_ordered` places. -/
theorem doubleClickFiresOnlyAtRisingEdge : Obligations.DoubleClickFiresOnlyAtRisingEdge := by
  rintro s t now level det ⟨hup, hdown, -⟩ h
  rw [dclick_mem_iff h]
  cases det with
  | up => exact dclick_iff_of_ordered hup level
  | down => exact dclick_iff_of_ordered hdown level

/-- Settles O16: the rising edge begins a `Holding`, the samples keep it, and the release ends it. -/
theorem holdDispatchesPressOnce : Obligations.HoldDispatchesPressOnce := by
  intro s t u t0 tEnd ts det hlevel hdisp hfall hhold hrelease long
  obtain ⟨a, hedge, hsamples⟩ := andThen_eq_next.mp hhold
  have held := holding_samples ts (holding_of_edge hlevel hdisp hfall hedge) hsamples
  rw [Bool.false_or] at held
  exact ⟨held.events, release_of_holding held hrelease⟩

/-- Settles O17: each sample keeps the log and the detector. -/
theorem untouchedButtonIsSilent : Obligations.UntouchedButtonIsSilent := by
  intro s t ts det lockout hs h
  refine execAll_keeps (P := fun a => a.out = s.out ∧ State.btn a det = Btn.reset lockout) (fun i hi a b hexec => ?_) h
    ⟨rfl, hs⟩
  rintro ⟨hout, hbtn⟩
  obtain ⟨x, -, rfl⟩ := List.mem_map.mp hi
  obtain ⟨hout', hbtn'⟩ := untouched_sample hbtn hexec
  exact ⟨hout'.trans hout, hbtn'⟩

/-- Settles O18: every sample keeps the `HiddenHold`, and `release_of_hiddenHold` ends it. -/
theorem equalStampsHideHold : Obligations.EqualStampsHideHold := by
  intro s det hboot hlevel hdisp hstamps
  have hidden : HiddenHold det (State.btn s det).rise (pressEvents det s.out) s := ⟨rfl, hdisp, hlevel, rfl, hstamps⟩
  rw [hstamps]
  refine ⟨fun now hclock => ?sample, fun ts t h => ?samples⟩
  case sample =>
    have runs := exec_upd_of_clockOk hboot hclock true det
    exact ⟨_, runs, hiddenHold_sample hidden runs⟩
  case samples =>
    have kept : HiddenHold det (State.btn s det).rise (pressEvents det s.out) t := by
      refine execAll_keeps (fun i hi a b hexec ha => ?_) h hidden
      obtain ⟨x, -, rfl⟩ := List.mem_map.mp hi
      exact hiddenHold_sample ha hexec
    obtain ⟨hlog, hdisp', hlevel', hrise, hfall⟩ := kept
    exact ⟨hlog, hdisp', hlevel', hrise, hfall, fun tEnd u hend =>
      release_of_hiddenHold ⟨hlog, hdisp', hlevel', hrise, hfall⟩ hend⟩

/-- Settles O21: only `TICK` and `UPD` write a deadline, and they raise it (`LockoutsWithin`). -/
theorem lockoutNeverDecreases : Obligations.LockoutNeverDecreases := by
  intro i s t hordered hreset h
  cases i with
  | reset now => exact absurd rfl (hreset now)
  | tick now upN downN =>
    have within := tick_lockoutsWithin hordered h
    exact ⟨(within .up).1, (within .down).1⟩
  | upd now level det =>
    obtain ⟨-, hclock, rfl⟩ := execUpd_eq_next h
    have within := lockoutsWithin_setBtn (lockoutsWithin_self hordered hclock.2) det level
    exact ⟨(within .up).1, (within .down).1⟩
  | _ =>
    obtain ⟨hup, hdown⟩ := exec_keeps_detectors h nofun nofun nofun
    exact ⟨(congrArg Btn.lockout hup).ge, (congrArg Btn.lockout hdown).ge⟩

end Sys2Proof.Machine
end

section
/-! Proofs about what every step keeps (10_state.md R31 to R43). `Update` lists the primitive updates once; every step is
a chain of them (`step_keeps`), so an invariant is settled by one case for each primitive. -/

namespace Sys2Proof.Machine

/-! ## The primitive updates -/

/-- The events of the leaf operations `FEED` and `UPD`, which neither drive nor publish (30_encoding.md R91). -/
def leafEvent : Event → Prop
  | .height _ | .press _ _ | .dclick _ => True
  | _ => False

/-- One primitive update of the state; the premises are what the operation that makes it has checked. -/
inductive Update : State → State → Prop
  | construct (now : Nat) (s : State) (fits : now + 1000 < 2 ^ s.cfg.timeBits) : Update s (constructed now s)
  | start (s : State) : Update s (startupPulse { s with boot := .running })
  | enqueue (b : Byte) (s : State) : Update s { s with rxq := s.rxq ++ [b] }
  | decoder (d : Dec) (s : State) : Update s { s with dec := d }
  | leafLog (es : List Event) (s : State) (leaf : ∀ e ∈ es, leafEvent e) : Update s { s with out := s.out ++ es }
  | time (now : Nat) (s : State) (clock : clockOk now s) : Update s { s with lastNow := now }
  | receive (s : State) : Update s (receive s)
  | drive (d : Dir) (s : State) : Update s (drive d s)
  | target (r : Option Raw) (s : State) : Update s (writeTgt r s)
  | notify (s : State) : Update s (heightChanged s)
  | choose (l : Label) (i : Nat) (s : State) (found : lookup l s.sel.presets = some i) :
      Update s (emit (.pubOpt l) (writeIdx i s))
  | detector (b : Button) (level : Bool) (s : State) :
      Update s (State.setBtn s b (upd level s.lastNow (State.btn s b)).btn)
  | report (c : Byte) (v : Int) (s : State) (unreported : s.hc.rep ≠ some c) :
      Update s { s with hc := { s.hc with rep := some c }, out := s.out ++ [.pubRaw c] ++ [.pubInch v] }
  | preset (l : Label) (h : Height) (s : State) : Update s (appendPreset l h s)
  | request (rest : List Request) (s : State) : Update s { s with cmds := rest }

/-- A chain of primitive updates. -/
abbrev Updates : State → State → Prop := Relation.ReflTransGen Update

theorem Update.chain {s t : State} (h : Update s t) : Updates s t := Relation.ReflTransGen.single h

/-- `TICK`: its time, its receive phase, and the updates of `tick_keeps`. -/
theorem tick_updates {now : Nat} {upN downN : Bool} {s t : State} (h : execTick now upN downN s = .next t) :
    Updates s t := by
  obtain ⟨-, hclock, -⟩ := execTick_eq_next h
  have kept : Updates s t ∧ t.lastNow = now := by
    refine tick_keeps (P := fun u => Updates s u ∧ u.lastNow = now) h ⟨?start, by rw [receive_atTime]⟩
      (fun d u hu => ⟨hu.1.tail (.drive d u), hu.2⟩) (fun r u hu => ⟨hu.1.tail (.target r u), hu.2⟩)
      (fun u hu => ⟨hu.1.tail (.notify u), hu.2⟩) (fun l i u found hu => ⟨hu.1.tail (.choose l i u found), hu.2⟩)
      (fun b l u hu => ?detector)
    case start => exact (Update.time now s hclock).chain.tail (.receive _)
    case detector =>
      obtain ⟨hchain, hlast⟩ := hu
      have step := Update.detector b l u
      rw [hlast] at step
      exact ⟨hchain.tail step, (setBtn_lastNow ..).trans hlast⟩
  exact kept.1

/-- `UPD`: its time, its detector, its events. -/
theorem upd_updates {now : Nat} {level : Bool} {det : Button} {s t : State} (h : execUpd now level det s = .next t) :
    Updates s t := by
  obtain ⟨-, hclock, rfl⟩ := execUpd_eq_next h
  have timed := (Update.time now s hclock).chain
  have stepped := timed.tail (.detector det level _)
  rw [List.append_assoc]
  have logged := stepped.tail (.leafLog ((upd level now (State.btn s det)).press.toList.map (Event.press det) ++
    if (upd level now (State.btn s det)).dclick then [Event.dclick det] else []) _ ?leaf)
  case leaf =>
    intro e he
    obtain hpress | hdclick := List.mem_append.mp he
    · obtain ⟨p, -, rfl⟩ := List.mem_map.mp hpress
      exact trivial
    · split at hdclick
      · exact List.mem_singleton.mp hdclick ▸ trivial
      · exact absurd hdclick List.not_mem_nil
  cases det <;> exact logged

/-- `SEL`: at most the target, then the index and the label. -/
theorem select_updates {l : Label} {s t : State} (h : select l s = .next t) : Updates s t := by
  obtain ⟨-, rfl⟩ | ⟨i, u, found, rfl | ⟨r, rfl⟩, rfl⟩ := select_eq_next h
  · exact .refl
  · exact (Update.choose l i _ found).chain
  · exact (Update.target r s).chain.tail (.choose l i _ found)

/-- Every operation is a chain of primitive updates. -/
theorem exec_updates {i : Instr} {s t : State} (h : exec i s = .next t) : Updates s t := by
  cases i with
  | reset now =>
    obtain ⟨hfits, rfl⟩ := execReset_eq_next h
    exact (Update.construct now s hfits).chain
  | init =>
    obtain ⟨-, rfl⟩ := execInit_eq_next h
    exact (Update.start s).chain
  | rxb b =>
    obtain ⟨-, rfl⟩ := execRxb_eq_next h
    exact (Update.enqueue b s).chain
  | tick now upN downN => exact tick_updates h
  | slowtick =>
    obtain ⟨-, rfl⟩ := execSlowtick_eq_next h
    obtain step | ⟨c, -, unreported, step⟩ := report_cases s
    · rw [step]
    · rw [step]
      exact (Update.report c _ s unreported).chain
  | sett v =>
    obtain ⟨-, r, rfl⟩ := execSett_eq_next h
    exact (Update.target r s).chain
  | feed b =>
    obtain ⟨-, rfl⟩ := execFeed_eq_next h
    refine (Update.decoder (feed b s.dec).1 s).chain.tail (.leafLog _ _ fun e he => ?_)
    obtain ⟨v, -, rfl⟩ := List.mem_map.mp he
    exact trivial
  | upd now level det => exact upd_updates h
  | sel l => exact select_updates (execSel_eq_next h).2
  | hchg =>
    obtain ⟨-, rfl⟩ := execHchg_eq_next h
    exact (Update.notify s).chain
  | addp l v =>
    obtain ⟨-, rfl⟩ := execAddp_eq_next h
    exact (Update.preset l v s).chain

/-- What every primitive update keeps, every step keeps. -/
theorem step_keeps {P : State → Prop} (keeps : ∀ a b, Update a b → P a → P b) {s t : State} (hs : P s)
    (h : step s = .next t) : P t := by
  have chain : Updates s t := by
    obtain ⟨-, rfl⟩ | ⟨q, rest, i, -, -, hexec⟩ := step_eq_next h
    · exact .refl
    · exact (Update.request rest s).chain.trans (exec_updates hexec)
  clear h
  induction chain with
  | refl => exact hs
  | tail _ last ih => exact keeps _ _ last ih

/-! ## The order of the edge times -/

/-- R46: what a `RESET` in its premise leaves is ordered. -/
theorem constructed_edgesOrdered {now : Nat} {s : State} (hfits : now + 1000 < 2 ^ s.cfg.timeBits) :
    EdgesOrdered (constructed now s) :=
  ⟨ordered_reset now, ordered_reset now, hfits⟩

/-- R31, R33: only a new latest time and a detector's step touch the order, and both keep it. -/
theorem update_edgesOrdered {s t : State} (h : Update s t) (hs : EdgesOrdered s) : EdgesOrdered t := by
  obtain ⟨hup, hdown, hlast⟩ := hs
  cases h with
  | construct now _ fits => exact constructed_edgesOrdered fits
  | time now _ clock => exact ⟨ordered_of_le hup clock.2, ordered_of_le hdown clock.2, clock.1⟩
  | detector b level =>
    cases b with
    | up => exact ⟨upd_ordered hup level, hdown, hlast⟩
    | down => exact ⟨hup, upd_ordered hdown level, hlast⟩
  | receive =>
    rw [receive_eq]
    exact ⟨hup, hdown, hlast⟩
  | _ => exact ⟨hup, hdown, hlast⟩

/-! ## The preset list -/

/-- R42, R43: a list that starts with the sentinel and holds heights after it keeps this when a pair is appended. -/
theorem appendPreset_presetsFormed {s : State} (hs : PresetsFormed s) (l : Label) (h : Height) :
    PresetsFormed (appendPreset l h s) := by
  obtain ⟨⟨rest, hpresets, hheights⟩, hidx⟩ := hs
  refine ⟨⟨rest ++ [{ label := l, h := some h }], ?_, fun p hp => ?_⟩, ?_⟩
  · rw [appendPreset_sel, hpresets]
    rfl
  · obtain hp | hp := List.mem_append.mp hp
    · exact hheights p hp
    · rw [List.mem_singleton.mp hp]
      nofun
  · rw [appendPreset_sel, List.length_append]
    exact Nat.lt_add_right _ hidx

/-- R43: an index that `Lookup` finds is in the list. -/
theorem lookup_lt_length {l : Label} {ps : List Preset} {i : Nat} (h : lookup l ps = some i) : i < ps.length := by
  obtain ⟨p, hp, -⟩ := Option.map_eq_some_iff.mp (lookup_some h)
  exact (List.getElem?_eq_some_iff.mp hp).1

/-- R42, R43: the list is only built anew or appended to, and the index is 0 or one that `Lookup` found. -/
theorem update_presetsFormed {s t : State} (h : Update s t) (hs : PresetsFormed s) : PresetsFormed t := by
  have ⟨hlist, hidx⟩ := hs
  cases h with
  | construct now => exact ⟨⟨[], rfl, nofun⟩, Nat.one_pos⟩
  | notify => exact ⟨hlist, Nat.zero_lt_of_lt hidx⟩
  | choose l i _ found => exact ⟨hlist, lookup_lt_length found⟩
  | preset l v => exact appendPreset_presetsFormed hs l v
  | detector b level => cases b <;> exact hs
  | receive =>
    rw [receive_eq]
    exact hs
  | _ => exact hs

/-! ## The event log -/

/-- R91: leaf events neither drive nor publish. -/
theorem leafEvents_silent {es : List Event} (h : ∀ e ∈ es, leafEvent e) :
    drives es = [] ∧ rawReports es = [] ∧ shownLabels es = [] := by
  refine ⟨List.filterMap_eq_nil_iff.mpr fun e he => ?_, List.filterMap_eq_nil_iff.mpr fun e he => ?_,
    List.filterMap_eq_nil_iff.mpr fun e he => ?_⟩
  all_goals
    have leaf := h e he
    cases e with
    | height | press | dclick => rfl
    | _ => exact leaf.elim

/-- R37, R164: whoever logs a drive sets the direction to it. -/
theorem update_directionLogged {s t : State} (h : Update s t) (hs : DirectionLogged s) : DirectionLogged t := by
  cases h with
  | construct now => rfl
  | start => exact (lastDriven_drv _ .stop).symm
  | leafLog es _ leaf => exact hs.trans (lastDriven_append (leafEvents_silent leaf).1).symm
  | drive d => exact (lastDriven_drv s.out d).symm
  | notify => exact hs.trans (lastDriven_append (drives_single _)).symm
  | choose l i => exact hs.trans (lastDriven_append (drives_single _)).symm
  | report c v =>
    have silent : lastDriven (s.out ++ [.pubRaw c] ++ [.pubInch v]) = lastDriven s.out := by
      rw [lastDriven_append (drives_single _), lastDriven_append (drives_single _)]
    exact hs.trans silent.symm
  | detector b level => cases b <;> exact hs
  | receive =>
    rw [receive_eq]
    exact hs
  | _ => exact hs

/-- A list keeps its neighbours different when an element other than its last one is appended. -/
theorem neighboursDiffer_append_single {c : Byte} :
    ∀ {l : List Byte}, neighboursDiffer l → l.getLast? ≠ some c → neighboursDiffer (l ++ [c])
  | [], _, _ => trivial
  | [_], _, hlast => ⟨fun heq => hlast (congrArg some heq), trivial⟩
  | _ :: _ :: _, ⟨hne, hrest⟩, hlast => ⟨hne, neighboursDiffer_append_single hrest (List.getLast?_cons_cons ▸ hlast)⟩

/-- The invariant reads the last report and the raw heights of the log alone. -/
theorem reportsDeduplicated_append {s t : State} {es : List Event} (hs : ReportsDeduplicated s)
    (hrep : t.hc.rep = s.hc.rep) (hout : t.out = s.out ++ es) (hes : rawReports es = []) :
    ReportsDeduplicated t := by
  rw [ReportsDeduplicated, hrep, hout, rawReports_append, hes, List.append_nil]
  exact hs

/-- R36, R176: a height is published when it is not the last one reported, and then is. -/
theorem update_reportsDeduplicated {s t : State} (h : Update s t) (hs : ReportsDeduplicated s) :
    ReportsDeduplicated t := by
  cases h with
  | construct now => exact ⟨rfl, trivial⟩
  | report c v _ unreported =>
    obtain ⟨hrep, hdiffer⟩ := hs
    have raw : rawReports (s.out ++ [.pubRaw c] ++ [.pubInch v]) = rawReports s.out ++ [c] := by
      rw [rawReports_append, rawReports_append, rawReports_single, rawReports_single, List.append_nil]
    refine ⟨?_, ?_⟩
    · rw [raw, List.getLast?_concat]
    · rw [raw]
      exact neighboursDiffer_append_single hdiffer (hrep ▸ unreported)
  | start => exact reportsDeduplicated_append hs rfl (by rw [startupPulse_eq]) rfl
  | leafLog es _ leaf => exact reportsDeduplicated_append hs rfl rfl (leafEvents_silent leaf).2.1
  | drive d => exact reportsDeduplicated_append hs rfl rfl (rawReports_single _)
  | notify => exact reportsDeduplicated_append hs rfl rfl (rawReports_single _)
  | choose l i => exact reportsDeduplicated_append hs rfl rfl (rawReports_single _)
  | detector b level => cases b <;> exact hs
  | receive =>
    rw [receive_eq]
    exact hs
  | _ => exact hs

/-- The invariant reads the selector and the labels of the log alone. -/
theorem selectionShown_append {s t : State} {es : List Event} (hs : SelectionShown s) (hsel : t.sel = s.sel)
    (hout : t.out = s.out ++ es) (hes : shownLabels es = []) : SelectionShown t := by
  rw [SelectionShown, hsel, hout, shownLabels_append, hes, List.append_nil]
  exact hs

/-- R203, R204: a label just published is the selected pair's, if it is that pair's. -/
theorem selectionShown_of_published {s t : State} {l : Label}
    (hlabel : (t.sel.presets[t.sel.idx]?).map Preset.label = some l) (hout : t.out = s.out ++ [.pubOpt l]) :
    SelectionShown t := by
  rw [SelectionShown, hlabel, hout, shownLabels_append, shownLabels_single, List.getLast?_concat]
  rfl

/-- R203, R204: the index and the published label are written together, and appending a pair moves no other. -/
theorem update_selectionShown {s t : State} (h : Update s t) (hformed : PresetsFormed s) (hs : SelectionShown s) :
    SelectionShown t := by
  obtain ⟨⟨rest, hpresets, -⟩, hidx⟩ := hformed
  cases h with
  | construct now => rfl
  | notify => exact selectionShown_of_published (s := s) (by rw [heightChanged_sel, hpresets]; rfl) rfl
  | choose l i _ found => exact selectionShown_of_published (s := s) (lookup_some found) rfl
  | preset l v =>
    rw [SelectionShown, appendPreset_sel, List.getElem?_append_left hidx]
    exact hs
  | start => exact selectionShown_append hs rfl (by rw [startupPulse_eq]) rfl
  | leafLog es _ leaf => exact selectionShown_append hs rfl rfl (leafEvents_silent leaf).2.2
  | drive d => exact selectionShown_append hs rfl rfl (shownLabels_single _)
  | report c v => exact selectionShown_append hs rfl (List.append_assoc ..) rfl
  | detector b level => cases b <;> exact hs
  | receive =>
    rw [receive_eq]
    exact hs
  | _ => exact hs

/-! ## The statements -/

/-- Settles O19: `update_edgesOrdered`, for every step. -/
theorem edgeOrderKept : Obligations.EdgeOrderKept :=
  fun _ _ hs h => step_keeps (fun _ _ => update_edgesOrdered) hs h

/-- Settles O20: `State.reset` is what `RESET 0` leaves. -/
theorem edgeOrderAtReset : Obligations.EdgeOrderAtReset :=
  constructed_edgesOrdered (now := 0) (s := State.reset) (by decide)

/-- Settles O51: `update_presetsFormed`, for every step. -/
theorem presetListKept : Obligations.PresetListKept :=
  fun _ _ hs h => step_keeps (fun _ _ => update_presetsFormed) hs h

/-- Settles O52: the list is the sentinel alone. -/
theorem presetListAtReset : Obligations.PresetListAtReset :=
  ⟨⟨[], rfl, nofun⟩, Nat.one_pos⟩

/-- Settles O53: `update_directionLogged`, for every step. -/
theorem directionLoggedKept : Obligations.DirectionLoggedKept :=
  fun _ _ hs h => step_keeps (fun _ _ => update_directionLogged) hs h

/-- Settles O55: `update_reportsDeduplicated`, for every step. -/
theorem reportsDeduplicatedKept : Obligations.ReportsDeduplicatedKept :=
  fun _ _ hs h => step_keeps (fun _ _ => update_reportsDeduplicated) hs h

/-- Settles O56: the selection is shown along with the form of the list, both being kept by every step. -/
theorem selectionShownKept : Obligations.SelectionShownKept := by
  intro s t hformed hs h
  have kept : PresetsFormed t ∧ SelectionShown t :=
    step_keeps (P := fun u => PresetsFormed u ∧ SelectionShown u)
      (fun _ _ hu ⟨hf, hsh⟩ => ⟨update_presetsFormed hu hf, update_selectionShown hu hf hsh⟩) ⟨hformed, hs⟩ h
  exact kept.2

/-- Settles O57: the log is empty, with no report, the outputs at Stop and the sentinel selected. -/
theorem logInvariantsAtReset : Obligations.LogInvariantsAtReset :=
  ⟨rfl, ⟨rfl, trivial⟩, rfl⟩

end Sys2Proof.Machine
end

section
/-! Proofs about byte streams and the pseudo-operations (41_decoder.md R112 to R119; 30_encoding.md R95). A trace of
`FEED`s is `feedAll`; the heights it surfaces are those of the parser `decodeCycles`, whose recursion the proof
follows. -/

namespace Sys2Proof.Machine

/-! ## Traces of `FEED` -/

/-- R70: a trace in two parts. -/
theorem execAll_append (first second : List Instr) (s : State) :
    execAll (first ++ second) s = andThen (execAll first s) (execAll second) := by
  induction first generalizing s with
  | nil => rfl
  | cons i rest ih =>
    rw [List.cons_append, execAll, execAll]
    cases exec i s with
    | next t => exact ih t
    | fault f => rfl
    | refused r => rfl

/-- R119: a trace of `FEED`s is `Feed` over its bytes, each surfaced height logged. -/
theorem execAll_feed (bytes : List Byte) {s : State} (hboot : s.boot ≠ .unbuilt) :
    execAll (bytes.map .feed) s = .next
      { s with dec := (feedAll bytes s.dec).1, out := s.out ++ (feedAll bytes s.dec).2.map .height } := by
  induction bytes generalizing s with
  | nil => exact congrArg Host.Outcome.next (by simp [feedAll])
  | cons b rest ih =>
    rw [List.map_cons, execAll, exec_feed_of_built hboot, andThen_next, ih (by exact hboot), feedAll_cons,
      List.map_append, List.append_assoc]

/-! ## Cycles of the decoder -/

/-- R112: a byte that surfaces nothing leaves the rest of the stream to the decoder after it. -/
theorem feedAll_cons_silent {b : Byte} {d e : Dec} (h : feed b d = (e, none)) (rest : List Byte) :
    feedAll (b :: rest) d = feedAll rest e := by
  rw [feedAll_cons, h]
  rfl

/-- R112: a byte that is not the marker throws away what was matched. -/
theorem feedAll_mismatch {sync : Sync} (h : sync ≠ .expectHeight) {b : Byte} (hb : b ≠ marker) (last cur : Option Byte)
    (rest : List Byte) : feedAll (b :: rest) ⟨sync, last, cur⟩ = feedAll rest ⟨.unsynced, last, cur⟩ := by
  refine feedAll_cons_silent ?_ rest
  rw [feed_of_ne_expectHeight h, if_neg hb]

/-- R112: the marker byte in a marker stage goes to the next stage. -/
theorem feedAll_marker {sync : Sync} (h : sync ≠ .expectHeight) (last cur : Option Byte) (rest : List Byte) :
    feedAll (marker :: rest) ⟨sync, last, cur⟩ = feedAll rest ⟨sync.succ, last, cur⟩ := by
  refine feedAll_cons_silent ?_ rest
  rw [feed_of_ne_expectHeight h, if_pos rfl]

theorem feedAll_one_marker (last cur : Option Byte) (rest : List Byte) :
    feedAll (marker :: rest) ⟨.unsynced, last, cur⟩ = feedAll rest ⟨.sawFirstMarker, last, cur⟩ :=
  feedAll_marker (sync := .unsynced) nofun last cur rest

theorem feedAll_two_markers (last cur : Option Byte) (rest : List Byte) :
    feedAll (marker :: marker :: rest) ⟨.unsynced, last, cur⟩ = feedAll rest ⟨.sawSecondMarker, last, cur⟩ :=
  (feedAll_one_marker last cur _).trans (feedAll_marker (sync := .sawFirstMarker) nofun last cur rest)

theorem feedAll_three_markers (last cur : Option Byte) (rest : List Byte) :
    feedAll (marker :: marker :: marker :: rest) ⟨.unsynced, last, cur⟩ = feedAll rest ⟨.expectHeight, last, cur⟩ :=
  (feedAll_two_markers last cur _).trans (feedAll_marker (sync := .sawSecondMarker) nofun last cur rest)

/-- R112, R113: three markers and a byte are one cycle, which surfaces the byte if the cycle before had it. -/
theorem feedAll_frame (last cur : Option Byte) (b : Byte) (rest : List Byte) :
    feedAll (marker :: marker :: marker :: b :: rest) ⟨.unsynced, last, cur⟩ =
      ((feedAll rest ⟨.unsynced, cur, some b⟩).1,
        (if some b = cur then [b] else []) ++ (feedAll rest ⟨.unsynced, cur, some b⟩).2) := by
  rw [feedAll_three_markers, feedAll_cons, feed_of_expectHeight rfl]
  by_cases agree : some b = cur
  · simp only [if_pos agree, Option.toList_some]
  · simp only [if_neg agree, Option.toList_none]

/-- How many markers are matched (R22). -/
def Sync.matched : Sync → Nat
  | .unsynced => 0
  | .sawFirstMarker => 1
  | .sawSecondMarker => 2
  | .expectHeight => 3

/-- A byte in a marker stage matches at most one more marker. -/
theorem matched_succ_le {sync : Sync} (h : sync ≠ .expectHeight) : sync.succ.matched ≤ sync.matched + 1 := by
  cases sync with
  | expectHeight => exact absurd rfl h
  | _ => exact Nat.le_refl _

/-- R112: fewer bytes than are left of a cycle surface nothing. -/
theorem feedAll_incomplete (bytes : List Byte) {sync : Sync} (h : sync.matched + bytes.length ≤ 3)
    (last cur : Option Byte) : (feedAll bytes ⟨sync, last, cur⟩).2 = [] := by
  induction bytes generalizing sync with
  | nil => rfl
  | cons b rest ih =>
    rw [List.length_cons] at h
    have hsync : sync ≠ .expectHeight := fun height => by
      rw [height, Sync.matched] at h
      omega
    have hnext := matched_succ_le hsync
    by_cases hb : b = marker
    · subst hb
      rw [feedAll_marker hsync]
      exact ih (by omega)
    · rw [feedAll_mismatch hsync hb]
      exact ih (by rw [Sync.matched]; omega)

/-- R115: the heights a stream surfaces are those of the cycles that agree with the cycle before, the first one being
compared with the decoder's own last cycle. -/
theorem feedAll_surfaces (bytes : List Byte) (last cur : Option Byte) :
    (feedAll bytes ⟨.unsynced, last, cur⟩).2 = agreeingCycles (cur.toList ++ decodeCycles bytes) := by
  induction bytes using decodeCycles.induct generalizing last cur with
  | case1 a b c d rest ha ih =>
    rw [decodeCycles, if_pos ha, feedAll_mismatch (sync := .unsynced) nofun ha]
    exact ih last cur
  | case2 a b c d rest ha hb ih =>
    obtain rfl : a = marker := not_not.mp ha
    rw [decodeCycles, if_neg ha, if_pos hb, feedAll_one_marker,
      feedAll_mismatch (sync := .sawFirstMarker) nofun hb]
    exact ih last cur
  | case3 a b c d rest ha hb hc ih =>
    obtain rfl : a = marker := not_not.mp ha
    obtain rfl : b = marker := not_not.mp hb
    rw [decodeCycles, if_neg ha, if_neg hb, if_pos hc, feedAll_two_markers,
      feedAll_mismatch (sync := .sawSecondMarker) nofun hc]
    exact ih last cur
  | case4 a b c d rest ha hb hc ih =>
    obtain rfl : a = marker := not_not.mp ha
    obtain rfl : b = marker := not_not.mp hb
    obtain rfl : c = marker := not_not.mp hc
    rw [decodeCycles, if_neg ha, if_neg hb, if_neg hc, feedAll_frame, ih]
    cases cur with
    | none => rfl
    | some v =>
      by_cases agree : v = d
      · subst agree
        simp [agreeingCycles]
      · have other : some d ≠ some v := fun h => agree (Option.some.inj h).symm
        simp [agreeingCycles, agree, other]
  | case5 bytes short =>
    have none_left : decodeCycles bytes = [] := decodeCycles.eq_2 bytes short
    have few : bytes.length ≤ 3 := by
      match bytes, short with
      | [], _ | [_], _ | [_, _], _ | [_, _, _], _ => simp
      | a :: b :: c :: d :: rest, short => exact (short a b c d rest rfl).elim
    rw [none_left, List.append_nil, feedAll_incomplete bytes (by rw [Sync.matched]; omega)]
    cases cur <;> rfl

/-! ## Pseudo-operations -/

/-- R95, R167: a trace of `RXB`s queues its bytes. -/
theorem execAll_rxb (bytes : List Byte) {s : State} (hboot : s.boot ≠ .unbuilt) :
    execAll (bytes.map .rxb) s = .next { s with rxq := s.rxq ++ bytes } := by
  induction bytes generalizing s with
  | nil => exact congrArg Host.Outcome.next (by simp)
  | cons b rest ih =>
    rw [List.map_cons, execAll, rxbEffect s b hboot, andThen_next, ih (by exact hboot), List.append_assoc]
    rfl

/-- A trace of one operation. -/
theorem execAll_single (i : Instr) (s : State) : execAll [i] s = exec i s := by
  rw [execAll]
  cases exec i s <;> rfl

/-- R95, R117: one well-formed frame fed to a decoder that has matched nothing. -/
theorem execAll_frame {s : State} {last cur : Option Byte} (hboot : s.boot ≠ .unbuilt)
    (hdec : s.dec = ⟨.unsynced, last, cur⟩) (b : Byte) :
    execAll ([marker, marker, marker, b].map .feed) s = .next
      { s with
        dec := ⟨.unsynced, cur, some b⟩
        out := s.out ++ if cur = some b then [.height b] else [] } := by
  rw [execAll_feed _ hboot, hdec, feedAll_frame]
  by_cases agree : cur = some b
  · rw [if_pos agree, if_pos agree.symm]
    rfl
  · rw [if_neg agree, if_neg (Ne.symm agree)]
    rfl

/-- R117: two well-formed frames. -/
theorem execAll_two_frames {s : State} {last cur : Option Byte} (hboot : s.boot ≠ .unbuilt)
    (hdec : s.dec = ⟨.unsynced, last, cur⟩) (b c : Byte) :
    execAll ([marker, marker, marker, b, marker, marker, marker, c].map .feed) s = .next
      { s with
        dec := ⟨.unsynced, some b, some c⟩
        out := s.out ++ (if cur = some b then [.height b] else []) ++ if b = c then [.height c] else [] } := by
  have cut : [marker, marker, marker, b, marker, marker, marker, c].map Instr.feed =
      [marker, marker, marker, b].map .feed ++ [marker, marker, marker, c].map .feed := rfl
  rw [cut, execAll_append, execAll_frame hboot hdec, andThen_next, execAll_frame (by exact hboot) rfl]
  simp only [Option.some.injEq]

/-! ## The statements -/

/-- Settles O12: the trace is `feedAll`, which surfaces the agreeing cycles. -/
theorem heightsSurfacedIffCyclesAgree : Obligations.HeightsSurfacedIffCyclesAgree := by
  intro bytes s hboot hdec
  refine ⟨_, execAll_feed bytes hboot, ?_⟩
  rw [hdec, feedAll_surfaces]
  rfl

/-- Settles O13: the frames one after the other, `A A`, then `X A`, then `A`. -/
theorem corruptedHeightByteCostsOneMoreFrame : Obligations.CorruptedHeightByteCostsOneMoreFrame := by
  intro a x s hboot hdec hne
  refine ⟨_, _, execAll_two_frames hboot hdec a a, ?first, execAll_two_frames (by exact hboot) rfl x a, ?second, _,
    execAll_frame (by exact hboot) rfl a, ?third⟩
  case first => simp
  case second => simp [hne, hne.symm]
  case third => simp

/-- Settles O47: `FRAME` and `FFRAME` are traces of `RXB` and `FEED`, `TICKI` and `CLEAR` single operations, and `BOOT`
is `RESET` and then `INIT`. -/
theorem pseudoOperationEffects : Obligations.PseudoOperationEffects := by
  intro s b now hboot
  refine ⟨execAll_rxb [marker, marker, marker, b] hboot, fun hsync => ?fframe, execAll_single .., ?clear,
    fun hfits => ?boot⟩
  case fframe =>
    have hdec : s.dec = ⟨.unsynced, s.dec.last, s.dec.cur⟩ := by rw [← hsync]
    exact execAll_frame hboot hdec b
  case clear => exact (execAll_single ..).trans ((settEffect s 0#32 hboot).2 (by decide))
  case boot =>
    have resets : execAll (Pseudo.boot now).expand s = execAll [.init] (constructed now s) := by
      rw [Pseudo.expand, execAll, exec_reset_of_fits hfits, andThen_next]
    have starts := (execAll_single .init (constructed now s)).trans (initEffect (constructed now s) rfl)
    exact ⟨_, resets.trans starts, rfl, rfl, rfl, rfl, rfl, rfl⟩

end Sys2Proof.Machine
end

section
/-! Proofs about the two conversions together (43_height_controller.md R163) and about `TICK` without a target, with and
without a double-click (R174, R175; 44_preset_selector.md R205). -/

namespace Sys2Proof.Machine

/-! ## Round trips of the conversions -/

/-- R8: a tenth of a valid scale is exact. -/
theorem tenth_mul_ten {c : Params} (hvalid : Params.valid c) : (c.inchScale : Int) / 10 * 10 = c.inchScale := by
  obtain ⟨-, hten, -⟩ := hvalid
  omega

/-- R161, R162: a whole number of tenths above `MIN_H` is converted exactly. -/
theorem inchesToRaw_of_tenths {c : Params} (hvalid : Params.valid c) {h k : Int}
    (hk : h - c.minH.toInt = k * ((c.inchScale : Int) / 10)) : inchesToRaw c h - c.minRaw.toInt = k := by
  rw [inchesToRaw_sub_minRaw, hk, Int.mul_assoc, tenth_mul_ten hvalid]
  exact rnd_exact k hvalid.1

/-- R163: a raw height survives the round trip. -/
theorem inchesToRaw_rawToH {c : Params} (hvalid : Params.valid c) (r : Int) : inchesToRaw c (rawToH c r) = r := by
  have exact_tenths := inchesToRaw_of_tenths hvalid (h := rawToH c r) (k := r - c.minRaw.toInt) (by
    rw [rawToH_eq, Int.add_sub_cancel])
  omega

/-- R163: a height on the grid survives the round trip. -/
theorem rawToH_inchesToRaw_of_tenths {c : Params} (hvalid : Params.valid c) {h : Int}
    (hgrid : (h - c.minH.toInt) % ((c.inchScale : Int) / 10) = 0) : rawToH c (inchesToRaw c h) = h := by
  have hk : h - c.minH.toInt = (h - c.minH.toInt) / ((c.inchScale : Int) / 10) * ((c.inchScale : Int) / 10) :=
    (Int.ediv_mul_cancel (Int.dvd_of_emod_eq_zero hgrid)).symm
  rw [rawToH_eq, inchesToRaw_of_tenths hvalid hk, ← hk, Int.sub_add_cancel]

/-- R163: off the grid the round trip is less than a tenth away. -/
theorem rawToH_inchesToRaw_close {c : Params} (hvalid : Params.valid c) (h : Int) :
    |rawToH c (inchesToRaw c h) - h| < (c.inchScale : Int) / 10 := by
  have scale := tenth_mul_ten hvalid
  obtain ⟨above, below⟩ := rnd_close ((h - c.minH.toInt) * 10) hvalid.1
  rw [rawToH_eq, inchesToRaw_sub_minRaw]
  generalize rnd ((h - c.minH.toInt) * 10) c.inchScale = q at above below ⊢
  rw [← scale] at above below
  rw [abs_lt]
  constructor <;> linarith

/-! ## Turns without a double-click -/

/-- R175: the direction after a press event's reaction is the reaction's own. -/
theorem directionAfter_reaction_some (old : Dir) (events : List Event) (attached : Bool) (b : Button) (p : Bool) :
    directionAfter old (events ++ reactionEvents attached b (some p)) = if p = true then buttonDir b else .stop := by
  have drive_first : reactionEvents attached b (some p) =
      [.drv (if p = true then buttonDir b else .stop)] ++ if attached = true then [.pubOpt 0x00#8] else [] := by
    cases b <;> rfl
  have silent : drives (if attached = true then [.pubOpt 0x00#8] else []) = [] := by cases attached <;> rfl
  rw [drive_first, ← List.append_assoc, directionAfter, if_neg (by simp), lastDriven_append silent, lastDriven_drv]

/-- R175: the directions of two reactions one after the other. -/
theorem directionAfter_append (old : Dir) (events : List Event) (attached : Bool) (b : Button) (press : Option Bool) :
    directionAfter (directionAfter old events) (reactionEvents attached b press) =
      directionAfter old (events ++ reactionEvents attached b press) := by
  cases press with
  | none => exact congrArg (directionAfter old) (List.append_nil events).symm
  | some p =>
    rw [directionAfter_reaction_some]
    exact directionAfter_reaction_some _ [] attached b p

/-- The selected index after a list of reactions: 0 if there is one and a selector is attached (R174). -/
def indexAfter (attached : Bool) (old : Nat) (events : List Event) : Nat :=
  if events ≠ [] ∧ attached = true then 0 else old

theorem indexAfter_append (attached : Bool) (old : Nat) (first second : List Event) :
    indexAfter attached (indexAfter attached old first) second = indexAfter attached old (first ++ second) := by
  cases first with
  | nil => simp [indexAfter]
  | cons e rest => cases attached <;> simp [indexAfter]

/-- R174: a reaction of one button clears the selection if there is a press event and a selector is attached. -/
theorem indexAfter_reaction (attached : Bool) (old : Nat) (b : Button) (press : Option Bool) :
    indexAfter attached old (reactionEvents attached b press) = if press ≠ none ∧ attached = true then 0 else old := by
  cases press <;> simp [indexAfter, reactionEvents]

/-- R174, R175: a press event's reaction in terms of its events. -/
theorem pressReaction_eq_events (b : Button) (press : Option Bool) (s : State) :
    pressReaction b press s =
      { s with
        hc := { s.hc with dir := directionAfter s.hc.dir (reactionEvents s.cfg.selAttached b press) }
        sel := { s.sel with
          idx := indexAfter s.cfg.selAttached s.sel.idx (reactionEvents s.cfg.selAttached b press) }
        out := s.out ++ reactionEvents s.cfg.selAttached b press } := by
  rw [pressReaction_eq, indexAfter_reaction]
  cases press with
  | none => rfl
  | some p =>
    have dir := directionAfter_reaction_some s.hc.dir [] s.cfg.selAttached b p
    rw [List.nil_append] at dir
    rw [dir]

/-- R174, R175: a turn without a double-click stores the detector and reacts to the press event. -/
theorem buttonStep_of_no_dclick {b : Button} {level : Bool} {now : Nat} {s : State}
    (h : (upd level now (State.btn s b)).dclick = false) :
    buttonStep b level now s = .next
      { State.setBtn s b (upd level now (State.btn s b)).btn with
        hc := { s.hc with
          dir := directionAfter s.hc.dir
            (reactionEvents s.cfg.selAttached b (upd level now (State.btn s b)).press) }
        sel := { s.sel with
          idx := indexAfter s.cfg.selAttached s.sel.idx
            (reactionEvents s.cfg.selAttached b (upd level now (State.btn s b)).press) }
        out := s.out ++ reactionEvents s.cfg.selAttached b (upd level now (State.btn s b)).press } := by
  rw [buttonStep_eq, h, if_neg (fun fired => absurd fired.1 nofun), pressTurn, pressReaction_eq_events]
  cases b <;> rfl

/-- R174, R175: both turns without a double-click. -/
theorem turns_of_no_dclick {s : State} {levelUp levelDown : Bool} {now : Nat} {events : List Event}
    (hup : (upd levelUp now s.btnUp).dclick = false) (hdown : (upd levelDown now s.btnDown).dclick = false)
    (hevents : events = reactionEvents s.cfg.selAttached .up (upd levelUp now s.btnUp).press ++
      reactionEvents s.cfg.selAttached .down (upd levelDown now s.btnDown).press) :
    andThen (buttonStep .up levelUp now s) (buttonStep .down levelDown now) = .next
      { s with
        btnUp := (upd levelUp now s.btnUp).btn
        btnDown := (upd levelDown now s.btnDown).btn
        hc := { s.hc with dir := directionAfter s.hc.dir events }
        sel := { s.sel with idx := indexAfter s.cfg.selAttached s.sel.idx events }
        out := s.out ++ events } := by
  rw [buttonStep_of_no_dclick (b := .up) hup, andThen_next, buttonStep_of_no_dclick ?down]
  case down => exact hdown
  simp only [setBtn_up, setBtn_down, btn_up, btn_down, directionAfter_append, indexAfter_append, List.append_assoc,
    hevents]

/-! ## Turns with a double-click -/

/-- R203: a later pair whose positive height converts within 32 bits sets the target, is selected and is published. -/
theorem select_of_in_range {label : Label} {s : State} {i : Nat} {h : Height} {l : Label}
    (hfound : lookup label s.sel.presets = some i) (hi : i ≠ 0)
    (hstored : s.sel.presets[i]? = some { label := l, h := some h }) (hpos : 0 < h.toInt)
    (hlow : -2 ^ 31 ≤ inchesToRaw s.cfg h.toInt) (hhigh : inchesToRaw s.cfg h.toInt < 2 ^ 31) :
    select label s = .next (emit (.pubOpt label)
      (writeIdx i (writeTgt (some (BitVec.ofInt 32 (inchesToRaw s.cfg h.toInt))) s))) := by
  rw [select_of_found_later hfound hi hstored, setTarget_eq_next.mpr (.inl ⟨hpos, ⟨hlow, hhigh⟩, rfl⟩), andThen_next]

/-- R174: without a press event a turn stores the detector before its double-click is looked at. -/
theorem pressTurn_of_no_press {b : Button} {level : Bool} {now : Nat} {s : State}
    (h : (upd level now (State.btn s b)).press = none) :
    pressTurn b level now s = State.setBtn s b (upd level now (State.btn s b)).btn := by
  rw [pressTurn, h]
  rfl

/-- R205: a turn with a double-click and no press event is the detector's step and then `Select`. -/
theorem buttonStep_of_dclick {b : Button} {level : Bool} {now : Nat} {s : State} (hsel : s.cfg.selAttached = true)
    (hdclick : (upd level now (State.btn s b)).dclick = true) (hpress : (upd level now (State.btn s b)).press = none) :
    buttonStep b level now s =
      select (Params.dcLabel s.cfg b) (State.setBtn s b (upd level now (State.btn s b)).btn) := by
  rw [buttonStep_eq, if_pos ⟨hdclick, hsel⟩, pressTurn_of_no_press hpress]

/-- R174: a turn without any event is the detector's step alone. -/
theorem buttonStep_of_no_event {b : Button} {level : Bool} {now : Nat} {s : State}
    (hdclick : (upd level now (State.btn s b)).dclick = false) (hpress : (upd level now (State.btn s b)).press = none) :
    buttonStep b level now s = .next (State.setBtn s b (upd level now (State.btn s b)).btn) := by
  rw [buttonStep_eq, hdclick, if_neg (fun fired => absurd fired.1 nofun), pressTurn_of_no_press hpress]

/-- R174, R205: both turns with one double-click and no press event: one turn selects and the other only steps its
detector, in the order of the buttons. -/
theorem turns_of_one_dclick {s : State} {levelUp levelDown : Bool} {now i : Nat} {b : Button} {label : Label}
    {h : Height} (hsel : s.cfg.selAttached = true) (hlabel : label = Params.dcLabel s.cfg b)
    (hupPress : (upd levelUp now s.btnUp).press = none) (hdownPress : (upd levelDown now s.btnDown).press = none)
    (hup : (upd levelUp now s.btnUp).dclick = decide (b = .up))
    (hdown : (upd levelDown now s.btnDown).dclick = decide (b = .down))
    (hfound : lookup label s.sel.presets = some i) (hi : i ≠ 0)
    (hstored : s.sel.presets[i]? = some { label := label, h := some h }) (hpos : 0 < h.toInt)
    (hlow : -2 ^ 31 ≤ inchesToRaw s.cfg h.toInt) (hhigh : inchesToRaw s.cfg h.toInt < 2 ^ 31) :
    andThen (buttonStep .up levelUp now s) (buttonStep .down levelDown now) = .next
      { s with
        btnUp := (upd levelUp now s.btnUp).btn
        btnDown := (upd levelDown now s.btnDown).btn
        hc := { s.hc with tgt := some (BitVec.ofInt 32 (inchesToRaw s.cfg h.toInt)) }
        sel := { s.sel with idx := i }
        out := s.out ++ [.pubOpt label] } := by
  cases b with
  | up =>
    have selects := select_of_in_range (s := State.setBtn s .up (upd levelUp now s.btnUp).btn)
      hfound hi hstored hpos hlow hhigh
    rw [buttonStep_of_dclick hsel (b := .up) hup hupPress, ← hlabel, btn_up, selects, andThen_next,
      buttonStep_of_no_event ?dclick ?press]
    case dclick => exact hdown
    case press => exact hdownPress
    rfl
  | down =>
    have selects := select_of_in_range
      (s := State.setBtn (State.setBtn s .up (upd levelUp now s.btnUp).btn) .down (upd levelDown now s.btnDown).btn)
      hfound hi hstored hpos hlow hhigh
    rw [buttonStep_of_no_event (b := .up) hup hupPress, andThen_next, buttonStep_of_dclick ?attached ?dclick ?press]
    case attached => exact hsel
    case dclick => exact hdown
    case press => exact hdownPress
    exact hlabel ▸ selects

/-! ## The statements -/

/-- Settles O32: each clause is its round trip. -/
theorem conversionRoundTrip : Obligations.ConversionRoundTrip :=
  fun _ hvalid => ⟨inchesToRaw_rawToH hvalid, fun _ => rawToH_inchesToRaw_of_tenths hvalid,
    rawToH_inchesToRaw_close hvalid⟩

/-- Settles O36: the receive phase, then the two turns of `turns_of_no_dclick`. -/
theorem tickIdleEffect : Obligations.TickIdleEffect := by
  intro s now upN downN hboot hclock hidle fed up down events hup hdown
  rw [exec_tick_of_idle hboot hclock hidle, receive_atTime]
  exact turns_of_no_dclick
    (s := { s with
      dec := fed.1, rxq := [], hc := { s.hc with cur := latestHeight s.hc.cur fed.2 }, lastNow := now })
    hup hdown rfl

/-- Settles O38: the receive phase, then the two turns of `turns_of_one_dclick`. -/
theorem tickDoubleClickSelects : Obligations.TickDoubleClickSelects := by
  intro s now upN downN b i h label hboot hclock hidle hsel fed up down hlabel hupPress hdownPress hup hdown hfound hi
    hstored hpos hlow hhigh
  rw [exec_tick_of_idle hboot hclock hidle, receive_atTime]
  have configured : label = Params.dcLabel s.cfg b := by
    rw [hlabel]
    cases b <;> rfl
  exact turns_of_one_dclick
    (s := { s with
      dec := fed.1, rxq := [], hc := { s.hc with cur := latestHeight s.hc.cur fed.2 }, lastNow := now })
    hsel configured hupPress hdownPress hup hdown hfound hi hstored hpos hlow hhigh

end Sys2Proof.Machine
end
